-- ==== Sys2Proof/Word.lean ====
section
/-! DEFINITION. The widths of 00_scope.md R10 and R12: bytes, checksums and lengths, command words, byte lists. -/

namespace Sys2Proof

/-- `u8` (R12). -/
abbrev Byte := BitVec 8

/-- `u16` (R12): checksums, the capacity, `write_position`, lengths and frame lengths (R10). -/
abbrev Half := BitVec 16

/-- `u32` (R12): a command word (R10, R65). -/
abbrev Word := BitVec 32

/-- `Bytes` (R12): a finite list of `u8`. -/
abbrev Bytes := List Byte

end Sys2Proof
end

