-- ==== Sys2Proof/Config.lean ====
section
/-! DEFINITION. The constants of the block (00_scope.md R9) and the free values the spec leaves open.
UNVERIFIED: the literals are the source's own and unaudited (93_implementation_defined.md I1, log 11). -/

namespace Sys2Proof.Config

/-- `BOUNDARY`, the boundary octet (R9). -/
def boundary : Byte := 0x7E#8

/-- `ESCAPE`, the control-escape octet (R9). -/
def escape : Byte := 0x7D#8

/-- `XMASK`, bit 5 of a byte (R9, R11). -/
def xmask : Byte := 0x20#8

/-- `CRC_POLY` (R9). -/
def crcPoly : Half := 0x1021#16

/-- `CRC_INIT` (R9). -/
def crcInit : Half := 0xFFFF#16

/-- `CRC_XOROUT`, "no final XOR" (R9). -/
def crcXorOut : Half := 0x0000#16

/-- The trailer length in bytes (R9). -/
def trailerLength : Nat := 2

/-- FREE VALUE (no body: nothing can evaluate it). What the buffer byte at index `i` holds when no storage
step has written it since draw number `d`: the `draw(C bytes)` of 41_frame_decoder.md R100, "any value" by
10_state.md R32 and 93_implementation_defined.md I2 (log 6). -/
opaque freeByte : (d i : Nat) → Byte

end Sys2Proof.Config
end

