-- ==== Sys2Proof/Syntax.lean ====
section
/-! DEFINITION. The instructions of spec/opcode_table.json, one constructor a row; their two encodings; the names
of the refusals; what the host issues; and the abstract lines of the assembler syntax (30_encoding.md R71, R72). -/

namespace Sys2Proof

/-- One constructor per row of the opcode table. The first five are the operations of the command word
(30_encoding.md R65). The last five are the classes of the decoder's input alphabet (R62): what a `DEC_FEED`
does, selected by the pair of the flag `esc` and the byte fed (log 8). -/
inductive Instr where
  /-- `DEC_INIT CAP` (R100). -/
  | decInit (cap : Half)
  /-- `DEC_FEED B` (R102). -/
  | decFeed (b : Byte)
  /-- `CRC_UPDATE RUN, B` (R83). -/
  | crcUpdate (run : Half) (b : Byte)
  /-- `CRC_COMPUTE N, P` (R84). -/
  | crcCompute (n : Half) (p : Bytes)
  /-- `ENC_ENCODE N, P` (R140). -/
  | encEncode (n : Half) (p : Bytes)
  /-- The byte 0x7E while `esc` is true (R104). -/
  | boundaryAfterEscape
  /-- The byte 0x7E while `esc` is false (R105 to R109). -/
  | boundary
  /-- Any byte but 0x7E while `esc` is true (R110). -/
  | escapedData (b : Byte)
  /-- The byte 0x7D while `esc` is false (R111). -/
  | escape
  /-- Any byte but 0x7E and 0x7D while `esc` is false (R112, R113). -/
  | data (b : Byte)
deriving DecidableEq, Repr

/-- The reasons of the model refusals (60_exceptions.md R163). A refusal is not a hardware event. -/
inductive RefusalReason where
  /-- Raised by decode: `w[31:28]` is 0x0 or 0x6 to 0xF. -/
  | reservedOpcode
  /-- Raised by decode: a must-be-zero field of the opcode's format is nonzero. -/
  | reservedBits
  /-- Raised by `DEC_INIT`: `CAP == 0`. -/
  | badCapacity
  /-- Raised by `CRC_COMPUTE` and `ENC_ENCODE`: `len(P) != N`. -/
  | lengthMismatch
  /-- Raised by `DEC_FEED`: no `DEC_INIT` has been performed on the block. -/
  | uninitialised
  /-- Raised by any decoder operation that overlaps another operation on the same decoder. -/
  | concurrent
  /-- Raised by any operation issued from inside a frame-ready or byte-sink callback of the same block. -/
  | reentrant
deriving DecidableEq, Repr

/-- An instruction as the block sees it: a command word with its data operand (R64), or the 9-bit value
`{esc, b}` the decoder classifies (spec/opcode_table.json, format decoder_input_byte). -/
inductive Encoded where
  | command (w : Word) (p : Bytes)
  | decoderInput (v : BitVec 9)
deriving DecidableEq, Repr

/-- How the host issues an operation: after the one before it has completed (20_memory.md R50), while another
operation on the same decoder is under way, or from inside a callback of the same block (R163, R167; log 3). -/
inductive IssueContext where
  | serial
  | overlapping
  | insideCallback
deriving DecidableEq, Repr

/-- One operation on the command-in interface (R64): the word, the data operand (empty where the host supplies
none, log 12), and how it was issued. -/
structure Issue where
  word : Word
  operand : Bytes
  context : IssueContext
deriving DecidableEq, Repr

/-- One line of the assembler syntax of R71 and R72, as data. -/
inductive AsmLine where
  /-- `dec.init CAP` -/
  | decInit (cap : Half)
  /-- `dec.feed B` -/
  | decFeed (b : Byte)
  /-- `crc.update RUN, B` -/
  | crcUpdate (run : Half) (b : Byte)
  /-- `crc.compute [..]` -/
  | crcCompute (p : Bytes)
  /-- `enc.encode [..]` -/
  | encEncode (p : Bytes)
  /-- The directive `.word W`: the raw word with no data operand. -/
  | word (w : Word)
  /-- The pseudo-instruction `dec.feeds b0, ..., bk`. -/
  | decFeeds (bs : Bytes)
  /-- The pseudo-instruction `dec.sync`. -/
  | decSync
deriving DecidableEq, Repr

end Sys2Proof
end

