-- ==== Sys2Proof/WellFormed.lean ====
section
/-! DEFINITION. Which instruction terms the encodings admit (30_encoding.md R62, R65, R67). -/

namespace Sys2Proof

/-- `DEC_INIT` has a nonzero capacity (R67, R100); the data operand of `CRC_COMPUTE` and `ENC_ENCODE` has the length
the word gives (R65, R67); `ESCAPED_DATA` is not the boundary octet and `DATA` is neither reserved octet (R62). -/
def Instr.wellFormed : Instr → Bool
  | .decInit cap => decide (cap ≠ 0#16)
  | .decFeed _ => true
  | .crcUpdate _ _ => true
  | .crcCompute n p => decide (p.length = n.toNat)
  | .encEncode n p => decide (p.length = n.toNat)
  | .boundaryAfterEscape => true
  | .boundary => true
  | .escapedData b => decide (b ≠ Config.boundary)
  | .escape => true
  | .data b => decide (b ≠ Config.boundary) && decide (b ≠ Config.escape)

/-- An instruction term that the encodings admit. -/
abbrev WellFormed (i : Instr) : Prop := i.wellFormed = true

/-- The operations on the decoder, which 20_memory.md R50 orders: `DEC_INIT` and `DEC_FEED` with its classes. -/
def Instr.isDecoderOp : Instr → Bool
  | .decInit _ => true
  | .decFeed _ => true
  | .crcUpdate _ _ => false
  | .crcCompute _ _ => false
  | .encEncode _ _ => false
  | .boundaryAfterEscape => true
  | .boundary => true
  | .escapedData _ => true
  | .escape => true
  | .data _ => true

/-- The operations of the command word, which the host can issue (R65). The rest are input classes (R62). -/
def Instr.isCommand : Instr → Bool
  | .decInit _ => true
  | .decFeed _ => true
  | .crcUpdate _ _ => true
  | .crcCompute _ _ => true
  | .encEncode _ _ => true
  | .boundaryAfterEscape => false
  | .boundary => false
  | .escapedData _ => false
  | .escape => false
  | .data _ => false

end Sys2Proof
end

