-- ==== Sys2Proof/Decode.lean ====
section
/-! DEFINITION. The decoder of command words (30_encoding.md R65 to R67), the classifier of the decoder's input alphabet
(R62), the encoder written from the same formats, and the opcode table as rows of mask and pattern. -/

namespace Sys2Proof

/-! ## Fields of the command word (R65, R66: unsigned, zero-extended, never scaled) -/

/-- `OP = w[31:28]`. -/
def Field.op (w : Word) : BitVec 4 := w.extractLsb' 28 4

/-- `w[27:16]`, must be zero for `DEC_INIT`, `CRC_COMPUTE` and `ENC_ENCODE`. -/
def Field.zeroAbove16 (w : Word) : BitVec 12 := w.extractLsb' 16 12

/-- `w[27:8]`, must be zero for `DEC_FEED`. -/
def Field.zeroAbove8 (w : Word) : BitVec 20 := w.extractLsb' 8 20

/-- `w[27:24]`, must be zero for `CRC_UPDATE`. -/
def Field.zeroAbove24 (w : Word) : BitVec 4 := w.extractLsb' 24 4

/-- `w[15:0]`: `CAP` of `DEC_INIT`, `N` of `CRC_COMPUTE` and `ENC_ENCODE`. -/
def Field.low16 (w : Word) : Half := w.extractLsb' 0 16

/-- `B = w[7:0]`. -/
def Field.byte (w : Word) : Byte := w.extractLsb' 0 8

/-- `RUN = w[23:8]`. -/
def Field.run (w : Word) : Half := w.extractLsb' 8 16

/-! ## Decode -/

/-- The decode function of R67, total on every word and operand, refusing by name. -/
def decodeCommand (w : Word) (p : Bytes) : Except RefusalReason Instr :=
  if Field.op w = 0x1#4 then
    if Field.zeroAbove16 w ≠ 0 then .error .reservedBits
    else if Field.low16 w = 0 then .error .badCapacity
    else .ok (.decInit (Field.low16 w))
  else if Field.op w = 0x2#4 then
    if Field.zeroAbove8 w ≠ 0 then .error .reservedBits
    else .ok (.decFeed (Field.byte w))
  else if Field.op w = 0x3#4 then
    if Field.zeroAbove24 w ≠ 0 then .error .reservedBits
    else .ok (.crcUpdate (Field.run w) (Field.byte w))
  else if Field.op w = 0x4#4 then
    if Field.zeroAbove16 w ≠ 0 then .error .reservedBits
    else if p.length ≠ (Field.low16 w).toNat then .error .lengthMismatch
    else .ok (.crcCompute (Field.low16 w) p)
  else if Field.op w = 0x5#4 then
    if Field.zeroAbove16 w ≠ 0 then .error .reservedBits
    else if p.length ≠ (Field.low16 w).toNat then .error .lengthMismatch
    else .ok (.encEncode (Field.low16 w) p)
  else .error .reservedOpcode

/-- The class of a byte fed to the decoder, in the order of tests of R62 and R103. -/
def classify (esc : Bool) (b : Byte) : Instr :=
  if b = Config.boundary then
    if esc then .boundaryAfterEscape else .boundary
  else if esc then .escapedData b
  else if b = Config.escape then .escape
  else .data b

/-- Decoding of either format: a command word with its operand, or the decoder's 9-bit input `{esc, b}`. -/
def decode : Encoded → Except RefusalReason Instr
  | .command w p => decodeCommand w p
  | .decoderInput v => .ok (classify (v.getLsbD 8) (v.extractLsb' 0 8))

/-! ## Encode -/

/-- The format `OP | 000000000000 | 16-bit field` of `DEC_INIT`, `CRC_COMPUTE` and `ENC_ENCODE` (R65). -/
def format16 (op : BitVec 4) (x : Half) : Word := op ++ 0x000#12 ++ x

/-- The format `OP | 00000000000000000000 | B` of `DEC_FEED` (R65). -/
def format8 (op : BitVec 4) (b : Byte) : Word := op ++ 0x00000#20 ++ b

/-- The format `OP | 0000 | RUN | B` of `CRC_UPDATE` (R65). -/
def format24 (op : BitVec 4) (run : Half) (b : Byte) : Word := op ++ 0x0#4 ++ run ++ b

/-- The 9-bit input `{esc, b}` of the decoder's alphabet (R62). -/
def inputValue (esc : BitVec 1) (b : Byte) : BitVec 9 := esc ++ b

/-- The words of an instruction, written from the formats of R65 and the rows of the opcode table. -/
def encode : Instr → Encoded
  | .decInit cap => .command (format16 0x1 cap) []
  | .decFeed b => .command (format8 0x2 b) []
  | .crcUpdate run b => .command (format24 0x3 run b) []
  | .crcCompute n p => .command (format16 0x4 n) p
  | .encEncode n p => .command (format16 0x5 n) p
  | .boundaryAfterEscape => .decoderInput (inputValue 1 Config.boundary)
  | .boundary => .decoderInput (inputValue 0 Config.boundary)
  | .escapedData b => .decoderInput (inputValue 1 b)
  | .escape => .decoderInput (inputValue 0 Config.escape)
  | .data b => .decoderInput (inputValue 0 b)

/-! ## The opcode table as rows -/

/-- A row of spec/opcode_table.json: a value belongs to the row when its bits under `mask` are `pattern`. -/
structure TableRow (n : Nat) where
  mask : BitVec n
  pattern : BitVec n
deriving DecidableEq, Repr

/-- Whether a value carries the fixed bits of a row. -/
def TableRow.matches {n : Nat} (r : TableRow n) (v : BitVec n) : Bool := decide (v &&& r.mask = r.pattern)

/-- The row `DEC_INIT`. -/
def rowDecInit : TableRow 32 := ⟨0xFFFF0000, 0x10000000⟩
/-- The row `DEC_FEED`. -/
def rowDecFeed : TableRow 32 := ⟨0xFFFFFF00, 0x20000000⟩
/-- The row `CRC_UPDATE`. -/
def rowCrcUpdate : TableRow 32 := ⟨0xFF000000, 0x30000000⟩
/-- The row `CRC_COMPUTE`. -/
def rowCrcCompute : TableRow 32 := ⟨0xFFFF0000, 0x40000000⟩
/-- The row `ENC_ENCODE`. -/
def rowEncEncode : TableRow 32 := ⟨0xFFFF0000, 0x50000000⟩
/-- The row `BOUNDARY_AFTER_ESCAPE`, priority 1. -/
def rowBoundaryAfterEscape : TableRow 9 := ⟨0x1FF, 0x17E⟩
/-- The row `BOUNDARY`, priority 1. -/
def rowBoundary : TableRow 9 := ⟨0x1FF, 0x07E⟩
/-- The row `ESCAPED_DATA`, priority 2. -/
def rowEscapedData : TableRow 9 := ⟨0x100, 0x100⟩
/-- The row `ESCAPE`, priority 3. -/
def rowEscape : TableRow 9 := ⟨0x1FF, 0x07D⟩
/-- The row `DATA`, priority 4. -/
def rowData : TableRow 9 := ⟨0x100, 0x000⟩

/-- The command rows of the table. -/
def commandRows : List (TableRow 32) := [rowDecInit, rowDecFeed, rowCrcUpdate, rowCrcCompute, rowEncEncode]

/-- Whether an encoded instruction is a command word on a row of the table. -/
def Encoded.onCommandRow (e : Encoded) (r : TableRow 32) : Bool :=
  match e with
  | .command w _ => r.matches w
  | .decoderInput _ => false

/-- Whether an encoded instruction is a decoder input on a row of the table. -/
def Encoded.onInputRow (e : Encoded) (r : TableRow 9) : Bool :=
  match e with
  | .command _ _ => false
  | .decoderInput v => r.matches v

/-- Whether the encoding of an instruction is on its own row and, for the rows of the decoder's input, on no row of a
higher priority. -/
def Instr.carriesItsRow (i : Instr) : Bool :=
  match i with
  | .decInit _ => (encode i).onCommandRow rowDecInit
  | .decFeed _ => (encode i).onCommandRow rowDecFeed
  | .crcUpdate _ _ => (encode i).onCommandRow rowCrcUpdate
  | .crcCompute _ _ => (encode i).onCommandRow rowCrcCompute
  | .encEncode _ _ => (encode i).onCommandRow rowEncEncode
  | .boundaryAfterEscape => (encode i).onInputRow rowBoundaryAfterEscape
  | .boundary => (encode i).onInputRow rowBoundary
  | .escapedData _ => (encode i).onInputRow rowEscapedData && !(encode i).onInputRow rowBoundaryAfterEscape
  | .escape => (encode i).onInputRow rowEscape
  | .data _ =>
    (encode i).onInputRow rowData && !(encode i).onInputRow rowBoundary && !(encode i).onInputRow rowEscape

/-! ## The host's view of one table word -/

/-- The data operand that follows the word in a number whose bits count on past the word: byte `i` is
`w[39+8i:32+8i]`, so an operand to which no bits are given is made of zero bytes. -/
def operandOf (w : Nat) (n : Nat) : Bytes := (List.range n).map fun i => BitVec.ofNat 8 (w >>> (32 + 8 * i))

/-- The data operand a command word takes: `N` bytes for the two opcodes that have one, none otherwise. -/
def commandOperand (w : Nat) : Bytes :=
  if Field.op (BitVec.ofNat 32 w) = 0x4#4 ∨ Field.op (BitVec.ofNat 32 w) = 0x5#4 then
    operandOf w (Field.low16 (BitVec.ofNat 32 w)).toNat
  else []

/-- A number of `nbits` bits as an encoded instruction: up to 16 bits it is a row of format decoder_input_byte
(9 bits, the rest of the second byte zero), otherwise a command word with its operand (log 15). -/
def tableEncoded (nbits w : Nat) : Option Encoded :=
  if nbits ≤ 16 then
    if w % 2 ^ nbits < 512 then some (.decoderInput (BitVec.ofNat 9 (w % 2 ^ nbits))) else none
  else some (.command (BitVec.ofNat 32 (w % 2 ^ nbits)) (commandOperand (w % 2 ^ nbits)))

/-- The instruction the decoder reads from a table word. -/
def decodeTableWord (nbits w : Nat) : Option Instr :=
  match tableEncoded nbits w with
  | none => none
  | some e =>
    match decode e with
    | .ok i => some i
    | .error _ => none

end Sys2Proof
end

