-- ==== Sys2Proof/Machine/State.lean ====
section
/-! DEFINITION. The state of the block (10_state.md R20 to R35), its output streams (20_memory.md R40), the operations
the host has issued (30_encoding.md R64), and the reasons a step can stop. -/

namespace Sys2Proof.Machine

/-- The decoder buffer as (index, byte) cells, indices strictly rising. An index that is not listed has not been
written since the last `DEC_INIT`. -/
abbrev Memory := List Host.Cell

/-- The frame record of 41_frame_decoder.md R101. -/
structure Frame where
  bytes : Bytes
  rawLength : Half
  payloadLength : Half
deriving DecidableEq, Repr

/-- One output of the block, on one of the three output interfaces of 30_encoding.md R64. -/
inductive Event where
  /-- The result output: one `u16` per `CRC_UPDATE` or `CRC_COMPUTE`. -/
  | result (v : Half)
  /-- The byte sink: `emit_byte`, the source's `send(byte)` (R15). -/
  | sinkByte (b : Byte)
  /-- The frame output: `emit_frame`, the source's `onFrame(buffer, length)`, and the result of the `DEC_FEED` (R15, D8). -/
  | frame (f : Frame)
deriving DecidableEq, Repr

/-- Everything the spec gives the block. -/
structure State where
  /-- The capacity `C` (R21). -/
  cap : Half
  /-- `buf` (R22). -/
  buf : Memory
  /-- `write_position` (R23). -/
  wp : Half
  /-- `escape_pending` (R24), the block's only flag. -/
  esc : Bool
  /-- `running_checksum` (R25). -/
  rcrc : Half
  /-- The mark of R35: a `DEC_INIT` has been performed. -/
  initialised : Bool
  /-- The model's own: how many times buffer contents have been drawn (R100, log 6). -/
  draws : Nat
  /-- The outputs so far, oldest first (R40, R51, D23). -/
  outputs : List Event
  /-- The reasons of the refused commands, oldest first. The `refused` mark of R163 is that one stands here. -/
  refusals : List RefusalReason
  /-- The operations issued and not yet performed, oldest first (R50, D23). -/
  pending : List Issue
deriving DecidableEq, Repr

/-- Why the machine stops. -/
inductive Fault where
  /-- Raised by `DEC_FEED` and its classes for a buffer access at an index outside `0..C-1`, which 20_memory.md R41
  says no access has. Safe: the model stops, and no reachable state raises it (log 7). -/
  | outsideBuffer (index : Nat)
deriving DecidableEq, Repr

/-- Why an instruction has no meaning. The refusals of 60_exceptions.md R163 are not these: they are next states
(log 1). -/
inductive Refusal where
  /-- Raised by `exec` for an instruction without a meaning. Safe: the model stops. No instruction raises it. -/
  | notModelled (mnemonic : String)
deriving DecidableEq, Repr

/-- The three outcomes of a step of this machine. -/
abbrev Outcome := Host.Outcome State Fault Refusal

/-- A block on which no operation has been issued (95_test_vectors.md section 7): `initialised` false (R35), no
outputs, no refusals, nothing pending. DESIGN CHOICE, unsafe: before the first `DEC_INIT` the decoder "has no defined
state" (R180), and the model names the values of R32 for `wp`, `esc` and `rcrc`, and 0 for `C` (log 5). -/
def State.reset : State where
  cap := 0
  buf := []
  wp := 0
  esc := false
  rcrc := Config.crcInit
  initialised := false
  draws := 0
  outputs := []
  refusals := []
  pending := []

end Sys2Proof.Machine
end

