-- ==== Sys2Proof/Machine/Operands.lean ====
section
/-! DEFINITION. How values are put together from bytes: halves and trailers (00_scope.md R12, R43, R106), unescaping
(R110), stuffing (R61), and the operand list of an operation (R42). -/

namespace Sys2Proof.Machine

/-- `hi8(v) = v[15:8]` (R12). -/
def hi8 (v : Half) : Byte := v.extractLsb' 8 8

/-- `lo8(v) = v[7:0]` (R12). -/
def lo8 (v : Half) : Byte := v.extractLsb' 0 8

/-- `{a, b}`: the value `(zext_16(a) << 8) | zext_16(b)`, the trailer with its high byte first (R12, R106). -/
def join (a b : Byte) : Half := (a.setWidth 16 <<< 8) ||| b.setWidth 16

/-- The byte an escaped byte stands for: bit 5 inverted (R110). -/
def unescape (b : Byte) : Byte := b ^^^ Config.xmask

/-- The stuffing function of 30_encoding.md R61. -/
def stuff (x : Byte) : Bytes :=
  if x = Config.boundary ∨ x = Config.escape then [Config.escape, x ^^^ Config.xmask] else [x]

/-- `P[0..n)`: the operand bytes an operation reads, in index order (R42). -/
def operandBytes (n : Half) (p : Bytes) : Bytes := p.take n.toNat

/-- The two trailer bytes of a checksum, high byte first (R43). -/
def trailerBytes (fcs : Half) : Bytes := [hi8 fcs, lo8 fcs]

end Sys2Proof.Machine
end

