-- ==== Sys2Proof/Machine/Flags.lean ====
section
/-! DEFINITION. The block's one flag, `escape_pending` (10_state.md R24). There are no condition codes (R29). -/

namespace Sys2Proof.Machine

/-- `esc <- true`: an escape octet received while the flag is false (R111). -/
def State.setEscape (s : State) : State := { s with esc := true }

/-- `esc <- false`: the byte after the escape octet clears the flag (R104, R110). -/
def State.clearEscape (s : State) : State := { s with esc := false }

end Sys2Proof.Machine
end

