-- ==== Sys2Proof/Machine/Checksum.lean ====
section
/-! DEFINITION. The checksum function, CRC-16/CCITT-FALSE (40_crc_engine.md R80 to R82). -/

namespace Sys2Proof.Machine

/-- One shift of the register: `(c << 1) ^ poly` when bit 15 is set, `c << 1` otherwise, truncated to 16 bits (R80). -/
def crcShift (c : Half) : Half := if c.getLsbD 15 then (c <<< 1) ^^^ Config.crcPoly else c <<< 1

/-- `k` shifts of the register. -/
def crcShifts : Nat → Half → Half
  | 0, c => c
  | k + 1, c => crcShifts k (crcShift c)

/-- `crc_update(c, b)`: the byte enters at the top, then eight shifts (R80). -/
def crcUpdate (c : Half) (b : Byte) : Half := crcShifts 8 (c ^^^ (b.setWidth 16 <<< 8))

/-- `crc_compute(L)`: the checksum of a whole byte list, with no final XOR (R82). -/
def crcCompute (l : Bytes) : Half := l.foldl crcUpdate Config.crcInit ^^^ Config.crcXorOut

end Sys2Proof.Machine
end

