-- ==== Sys2Proof/Machine/Ops.lean ====
section
/-! DEFINITION. The shared operations: the buffer, the outputs, refusing a command, and the paths of the decoder's byte
step. The block has no exception to take and none to return from (60_exceptions.md R160, R166); the one thing like it, the
refusal of a command (R163), is `State.refuse`. -/

namespace Sys2Proof.Machine

/-! ## The buffer (R22, R40, R41) -/

/-- The byte listed at an index; none where no byte is listed. -/
def Memory.read : Memory → Nat → Option Byte
  | [], _ => none
  | c :: m, a => if a = c.1 then some c.2 else Memory.read m a

/-- Writes a byte at an index, keeping the indices strictly rising. -/
def Memory.write : Memory → Nat → Byte → Memory
  | [], a, v => [(a, v)]
  | c :: m, a, v =>
    if a < c.1 then (a, v) :: c :: m
    else if a = c.1 then (a, v) :: m
    else c :: Memory.write m a v

/-- The canonical form: indices strictly rising. An index that is not listed reads as a free value, which no listed
byte can be said to equal, so the form asks nothing more (log 6). -/
abbrev Memory.wf (m : Memory) : Prop := m.Pairwise fun c d => c.1 < d.1

/-- `buf[i]`: the byte listed, or the free value the last draw left there (R32). -/
def State.bufAt (s : State) (i : Nat) : Byte := (Memory.read s.buf i).getD (Config.freeByte s.draws i)

/-- `buf[0..n)`. -/
def State.bufPrefix (s : State) (n : Nat) : Bytes := (List.range n).map s.bufAt

/-- `buf <- draw(C bytes)`: nothing is listed, and every index reads as a fresh free value (R100). -/
def State.drawBuffer (s : State) : State := { s with buf := [], draws := s.draws + 1 }

/-- `buf[wp] <- b` (R112). -/
def State.writeAtPosition (s : State) (b : Byte) : State := { s with buf := Memory.write s.buf s.wp.toNat b }

/-! ## Outputs (R15) and refusals (R163) -/

/-- Appends output events in program order (R16, R51). The byte sink always accepts (D11, log 10). -/
def State.emit (s : State) (es : List Event) : State := { s with outputs := s.outputs ++ es }

/-- The refusal of a command: it changes no block state, emits nothing, returns no result, and sets the run's mark,
here with its reason (R163, log 1). -/
def State.refuse (s : State) (r : RefusalReason) : State := { s with refusals := s.refusals ++ [r] }

/-! ## Views of the outputs and of the refusals -/

/-- The `refused` mark of 60_exceptions.md R163. -/
def State.refused (s : State) : Bool := !s.refusals.isEmpty

/-- The byte of an event on the byte sink. -/
def Event.sinkByte? : Event → Option Byte
  | .result _ => none
  | .sinkByte b => some b
  | .frame _ => none

/-- The frame of an event, if it is one. -/
def Event.frame? : Event → Option Frame
  | .result _ => none
  | .sinkByte _ => none
  | .frame f => some f

/-- The result of an event, if it is one. -/
def Event.result? : Event → Option Half
  | .result v => some v
  | .sinkByte _ => none
  | .frame _ => none

/-- The byte-sink stream (R40). -/
def State.sink (s : State) : Bytes := s.outputs.filterMap Event.sinkByte?

/-- The frame event stream (R40). -/
def State.frames (s : State) : List Frame := s.outputs.filterMap Event.frame?

/-- The results, in order (R64). -/
def State.results (s : State) : List Half := s.outputs.filterMap Event.result?

/-! ## The decoder's registers -/

/-- `wp <- 0; rcrc <- 0xFFFF`: the boundary reset (R109) and the overflow reset (R113). -/
def State.resetPosition (s : State) : State := { s with wp := 0, rcrc := Config.crcInit }

/-- `rcrc <- crc_update(rcrc, buf[wp-2])` when `wp >= 2` (R112). -/
def State.updateRunning (s : State) : State :=
  if 2 ≤ s.wp.toNat then { s with rcrc := crcUpdate s.rcrc (s.bufAt (s.wp.toNat - 2)) } else s

/-- `wp <- wp + 1` (R112). -/
def State.advance (s : State) : State := { s with wp := s.wp + 1 }

/-- The overflow guard: a reset when `wp == C` (R113). -/
def State.overflowGuard (s : State) : State := if s.wp = s.cap then s.resetPosition else s

/-! ## The paths of the byte step (R102) -/

/-- The bytes held have a trailer that is the checksum of the rest: `crc_compute(buf[0..wp-2)) == {buf[wp-2], buf[wp-1]}`
(R105, R106). -/
def State.trailerMatches (s : State) : Bool :=
  decide (crcCompute (s.bufPrefix (s.wp.toNat - Config.trailerLength))
    = join (s.bufAt (s.wp.toNat - 2)) (s.bufAt (s.wp.toNat - 1)))

/-- The frame record of the bytes held (R101, R107). -/
def State.frameHeld (s : State) : Frame where
  bytes := s.bufPrefix s.wp.toNat
  rawLength := s.wp
  payloadLength := s.wp - BitVec.ofNat 16 Config.trailerLength

/-- Step 1.a and 1.c: the pending escape is absorbed, nothing is validated, the position is reset (R104, R109). -/
def absorbEscape (s : State) : Outcome := .next s.clearEscape.resetPosition

/-- Step 1.b and 1.c: with two bytes or more, validate and emit the frame on a match (R105 to R108); then reset (R109).
The access beyond the buffer that no reachable state makes is a fault (log 7). -/
def validateAndReset (s : State) : Outcome :=
  if s.wp.toNat < Config.trailerLength then .next s.resetPosition
  else if s.cap.toNat < s.wp.toNat then .fault (.outsideBuffer (s.wp.toNat - 1))
  else if s.trailerMatches then .next (s.emit [.frame s.frameHeld]).resetPosition
  else .next s.resetPosition

/-- Step 4 and 5: store a byte, update the running checksum, advance, guard against overflow (R112, R113).
The store beyond the buffer that no reachable state makes is a fault (log 7). -/
def storeByte (b : Byte) (s : State) : Outcome :=
  if s.wp.toNat < s.cap.toNat then .next (s.writeAtPosition b).updateRunning.advance.overflowGuard
  else .fault (.outsideBuffer s.wp.toNat)

/-- Step 2: clear the flag and store the byte with bit 5 inverted (R110). -/
def storeUnescaped (b : Byte) (s : State) : Outcome := storeByte (unescape b) s.clearEscape

/-- Step 3: set the flag and store nothing (R111). -/
def noteEscape (s : State) : Outcome := .next s.setEscape

/-- A path of the byte step on a decoder that has been constructed; refused before the first `DEC_INIT` (R35, R163). -/
def onDecoder (path : State → Outcome) (s : State) : Outcome :=
  if s.initialised then path s else .next (s.refuse .uninitialised)

end Sys2Proof.Machine
end

