-- ==== Sys2Proof/Machine/CrcUnit.lean ====
section
/-! DEFINITION. The CRC unit's operations (40_crc_engine.md R83, R84). Neither writes any block state. -/

namespace Sys2Proof.Machine

/-- `CRC_UPDATE` (R83): the streaming mode, any running value accepted (D26). -/
def execCrcUpdate (run : Half) (b : Byte) (s : State) : Outcome :=
  .next (s.emit [.result (crcUpdate run b)])

/-- `CRC_COMPUTE` (R84): the batch mode. Refused when `len(P) != N` (R163). -/
def execCrcCompute (n : Half) (p : Bytes) (s : State) : Outcome :=
  if p.length = n.toNat then .next (s.emit [.result (crcCompute (operandBytes n p))])
  else .next (s.refuse .lengthMismatch)

end Sys2Proof.Machine
end

