-- ==== Sys2Proof/Machine/FrameDecoder.lean ====
section
/-! DEFINITION. The frame decoder's operations: construction (41_frame_decoder.md R100), the byte step `DEC_FEED` (R102)
and each class of its input alphabet (30_encoding.md R62) as an instruction of its own (log 8). -/

namespace Sys2Proof.Machine

/-- `DEC_INIT` (R100): the values of 10_state.md R32; a partial frame is dropped. Refused when `CAP == 0` (R163). -/
def execDecInit (cap : Half) (s : State) : Outcome :=
  if cap = 0 then .next (s.refuse .badCapacity)
  else .next { s.drawBuffer.resetPosition.clearEscape with cap := cap, initialised := true }

/-- `DEC_FEED` (R102), with the tests in the order of R103. -/
def execDecFeed (b : Byte) (s : State) : Outcome :=
  onDecoder (fun s =>
    if b = Config.boundary then
      if s.esc then absorbEscape s else validateAndReset s
    else if s.esc then storeUnescaped b s
    else if b = Config.escape then noteEscape s
    else storeByte b s) s

/-- `BOUNDARY_AFTER_ESCAPE` (R104, R109). -/
def execBoundaryAfterEscape (s : State) : Outcome := onDecoder absorbEscape s

/-- `BOUNDARY` (R105 to R109). -/
def execBoundary (s : State) : Outcome := onDecoder validateAndReset s

/-- `ESCAPED_DATA` (R110, R112, R113). -/
def execEscapedData (b : Byte) (s : State) : Outcome := onDecoder (storeUnescaped b) s

/-- `ESCAPE` (R111). -/
def execEscape (s : State) : Outcome := onDecoder noteEscape s

/-- `DATA` (R112, R113). -/
def execData (b : Byte) (s : State) : Outcome := onDecoder (storeByte b) s

end Sys2Proof.Machine
end

