-- ==== Sys2Proof/Machine/FrameEncoder.lean ====
section
/-! DEFINITION. The frame encoder's operation (42_frame_encoder.md R140 to R145). It writes no block state (R27). -/

namespace Sys2Proof.Machine

/-- The bytes of one frame on the wire in emission order: opening boundary, stuffed payload, stuffed trailer with the high
byte first, closing boundary (R142 to R145, 30_encoding.md R60). The checksum is over the raw payload (R141). -/
def wireFrame (p : Bytes) : Bytes :=
  [Config.boundary] ++ p.flatMap stuff ++ (trailerBytes (crcCompute p)).flatMap stuff ++ [Config.boundary]

/-- `ENC_ENCODE` (R140). Refused when `len(P) != N` (R163). -/
def execEncEncode (n : Half) (p : Bytes) (s : State) : Outcome :=
  if p.length = n.toNat then .next (s.emit ((wireFrame (operandBytes n p)).map .sinkByte))
  else .next (s.refuse .lengthMismatch)

end Sys2Proof.Machine
end

