-- ==== Sys2Proof/Machine/Dispatch.lean ====
section
/-! DEFINITION. One arm per instruction of spec/opcode_table.json. -/

namespace Sys2Proof.Machine

def exec (i : Instr) (s : State) : Host.Outcome State Fault Refusal :=
  match i with
  | .decInit cap => Sys2Proof.Machine.execDecInit cap s
  | .decFeed b => Sys2Proof.Machine.execDecFeed b s
  | .crcUpdate run b => Sys2Proof.Machine.execCrcUpdate run b s
  | .crcCompute n p => Sys2Proof.Machine.execCrcCompute n p s
  | .encEncode n p => Sys2Proof.Machine.execEncEncode n p s
  | .boundaryAfterEscape => Sys2Proof.Machine.execBoundaryAfterEscape s
  | .boundary => Sys2Proof.Machine.execBoundary s
  | .escapedData b => Sys2Proof.Machine.execEscapedData b s
  | .escape => Sys2Proof.Machine.execEscape s
  | .data b => Sys2Proof.Machine.execData b s

end Sys2Proof.Machine
end

