-- ==== Sys2Proof/Machine/HostInterface.lean ====
section
/-! DEFINITION. The command-in interface (30_encoding.md R64): which instruction an issue is, or why it is refused
(60_exceptions.md R163), and how a table word is put where the next step takes its instruction. -/

namespace Sys2Proof.Machine

/-- The instruction of an issue, or the reason of its refusal. Decode comes first; then an operation from inside a callback
is refused (R167), and a decoder operation that overlaps another is refused (R50). DESIGN CHOICE: the order of these
reasons, which changes only the reason recorded (log 2, log 3). -/
def accept (iss : Issue) : Except RefusalReason Instr :=
  match decode (.command iss.word iss.operand) with
  | .error r => .error r
  | .ok i =>
    match iss.context with
    | .serial => .ok i
    | .overlapping => if i.isDecoderOp then .error .concurrent else .ok i
    | .insideCallback => .error .reentrant

/-- An operation issued after the one before it has completed. -/
def serialIssue (w : Word) (p : Bytes) : Issue := ⟨w, p, .serial⟩

/-- The issue of a word and operand when it is a command; an input class is fed by `DEC_FEED` of its byte. -/
def issueOf : Encoded → Issue
  | .command w p => serialIssue w p
  | .decoderInput v => serialIssue (format8 0x2 (v.extractLsb' 0 8)) []

/-- An encoded instruction made the block's very next operation. A command is put at the head of the pending operations.
A value `{esc, b}` of the decoder's input alphabet is the byte `b` fed while the flag is `esc`: the flag takes bit 8, and
the `DEC_FEED` of `b` is put at the head (log 15). -/
def State.withNext (s : State) (e : Encoded) : State :=
  match e with
  | .command _ _ => { s with pending := issueOf e :: s.pending }
  | .decoderInput v => { s with esc := v.getLsbD 8, pending := issueOf e :: s.pending }

/-- A table word made the block's very next operation; a number that encodes nothing leaves the state. -/
def State.withTableWord (s : State) (nbits w : Nat) : State :=
  match tableEncoded nbits w with
  | none => s
  | some e => s.withNext e

end Sys2Proof.Machine
end

