-- ==== Sys2Proof/Machine/Step.lean ====
section
/-! DEFINITION. One step: the oldest pending operation is taken and performed, or refused by name (20_memory.md R50,
60_exceptions.md R163). With nothing pending the block waits (70_reset_and_hazards.md R182, 60_exceptions.md R174). -/

namespace Sys2Proof.Machine

/-- One atomic step of the block (00_scope.md R16). -/
def step (s : State) : Host.Outcome State Fault Refusal :=
  match s.pending with
  | [] => .next s
  | iss :: rest =>
    match accept iss with
    | .error r => .next (State.refuse { s with pending := rest } r)
    | .ok i => exec i { s with pending := rest }

/-- The state whose very next step performs the table word `w`. A program is a list of issues loaded from outside into
`pending`; this stands for that load (log 4). -/
def State.withFetchWord (s : State) (nbits w : Nat) : State := s.withTableWord nbits w

end Sys2Proof.Machine
end

