-- ==== Sys2Proof/Machine/Assembler.lean ====
section
/-! DEFINITION. The assembler syntax of 30_encoding.md R71 and R72: lines of text to lines as data, and those to the issues
they stand for. What R71 leaves open of the text (white space, letter case of digits) is log 17. -/

namespace Sys2Proof.Machine

/-! ## Lines as data -/

/-- The words of R71, and the expansions of R72 in the order shown. A byte list sets `N` to its length. -/
def AsmLine.issues : AsmLine → List Issue
  | .decInit cap => [serialIssue (0x10000000#32 ||| cap.setWidth 32) []]
  | .decFeed b => [serialIssue (0x20000000#32 ||| b.setWidth 32) []]
  | .crcUpdate run b => [serialIssue (0x30000000#32 ||| (run.setWidth 32 <<< 8) ||| b.setWidth 32) []]
  | .crcCompute p => [serialIssue (0x40000000#32 ||| BitVec.ofNat 32 p.length) p]
  | .encEncode p => [serialIssue (0x50000000#32 ||| BitVec.ofNat 32 p.length) p]
  | .word w => [serialIssue w []]
  | .decFeeds bs => bs.map fun b => serialIssue (0x20000000#32 ||| b.setWidth 32) []
  | .decSync => [serialIssue 0x2000007E#32 [], serialIssue 0x2000007E#32 []]

/-! ## Text -/

/-- A token: a word, a number, a comma or a bracket. -/
abbrev Token := List Char

/-- Puts the token read so far (its characters in reverse) before the tokens after it. -/
def flushToken (acc : List Char) (ts : List Token) : List Token := if acc.isEmpty then ts else acc.reverse :: ts

/-- The tokens of a line; the comment after `;` is dropped (R71). -/
def tokens : List Char → List Char → List Token
  | [], acc => flushToken acc []
  | c :: cs, acc =>
    if c = ';' then flushToken acc []
    else if c = ' ' ∨ c = '\t' then flushToken acc (tokens cs [])
    else if c = ',' ∨ c = '[' ∨ c = ']' then flushToken acc ([c] :: tokens cs [])
    else tokens cs (c :: acc)

/-- The value of a digit, hexadecimal ones included. -/
def digitValue (c : Char) : Option Nat :=
  if '0' ≤ c ∧ c ≤ '9' then some (c.toNat - '0'.toNat)
  else if 'a' ≤ c ∧ c ≤ 'f' then some (c.toNat - 'a'.toNat + 10)
  else if 'A' ≤ c ∧ c ≤ 'F' then some (c.toNat - 'A'.toNat + 10)
  else none

/-- The number written by digits in a base, most significant first, after a prefix of value `acc`. -/
def digitsValue (base : Nat) : Nat → List Char → Option Nat
  | acc, [] => some acc
  | acc, c :: cs =>
    match digitValue c with
    | some d => if d < base then digitsValue base (acc * base + d) cs else none
    | none => none

/-- "Numbers are hexadecimal with `0x` or decimal" (R71). -/
def numberValue (t : Token) : Option Nat :=
  match t with
  | [] => none
  | '0' :: 'x' :: ds => if ds.isEmpty then none else digitsValue 16 0 ds
  | c :: cs => digitsValue 10 0 (c :: cs)

/-- A number that fits a field of `w` bits. -/
def fieldValue (w : Nat) (t : Token) : Option (BitVec w) :=
  match numberValue t with
  | some n => if n < 2 ^ w then some (BitVec.ofNat w n) else none
  | none => none

/-- One or more bytes separated by commas. -/
def commaBytes : List Token → Option Bytes
  | [] => none
  | [t] => (fieldValue 8 t).map fun b => [b]
  | t :: c :: ts =>
    if c = [','] then
      match fieldValue 8 t, commaBytes ts with
      | some b, some bs => some (b :: bs)
      | _, _ => none
    else none

/-- A byte list `[b0, b1, ...]`, at most 65535 bytes so that its length is an `N`. -/
def bracketBytes (ts : List Token) : Option Bytes :=
  if ts = [['['], [']']] then some []
  else if ts.head? = some ['['] ∧ ts.getLast? = some [']'] then
    match commaBytes ts.tail.dropLast with
    | some bs => if bs.length < 65536 then some bs else none
    | none => none
  else none

/-- The operation a line of tokens names (R71, R72). -/
def lineOf (op : Token) (ts : List Token) : Option AsmLine :=
  if op = "dec.init".toList then
    match ts with
    | [t] => (fieldValue 16 t).map .decInit
    | _ => none
  else if op = "dec.feed".toList then
    match ts with
    | [t] => (fieldValue 8 t).map .decFeed
    | _ => none
  else if op = "crc.update".toList then
    match ts with
    | [r, [','], t] =>
      match fieldValue 16 r, fieldValue 8 t with
      | some run, some b => some (.crcUpdate run b)
      | _, _ => none
    | _ => none
  else if op = "crc.compute".toList then (bracketBytes ts).map .crcCompute
  else if op = "enc.encode".toList then (bracketBytes ts).map .encEncode
  else if op = ".word".toList then
    match ts with
    | [t] => (fieldValue 32 t).map .word
    | _ => none
  else if op = "dec.feeds".toList then (commaBytes ts).map .decFeeds
  else if op = "dec.sync".toList then if ts.isEmpty then some .decSync else none
  else none

/-- The issues of one line of text: none of a blank or comment line, nothing for text that is no line of the syntax. -/
def assembleLine (line : String) : Option (List Issue) :=
  match tokens line.toList [] with
  | [] => some []
  | op :: ts => (lineOf op ts).map AsmLine.issues

/-- The issues of a program, its lines in order. -/
def assemble : List String → Option (List Issue)
  | [] => some []
  | line :: lines =>
    match assembleLine line, assemble lines with
    | some is, some rest => some (is ++ rest)
    | _, _ => none

end Sys2Proof.Machine
end

