-- ==== Sys2Proof/Safety.lean ====
section
/-! DEFINITION. The terms claims are stated in: what a reachable state satisfies (10_state.md R34), what a valid frame is
(41_frame_decoder.md R101), what a storage step leaves, what the host can observe (D23), and sequences of operations. -/

namespace Sys2Proof.Machine

/-! ## Frames -/

/-- The payload of a frame record: its bytes before the trailer. -/
def Frame.payload (f : Frame) : Bytes := f.bytes.take f.payloadLength.toNat

/-- The lengths of R101: `len(bytes) == rawLength`, `rawLength >= 2`, `payloadLength == rawLength - 2`. -/
structure Frame.LengthsAgree (f : Frame) : Prop where
  raw : f.bytes.length = f.rawLength.toNat
  atLeastTrailer : 2 ≤ f.rawLength.toNat
  payload : f.payloadLength.toNat = f.rawLength.toNat - 2

/-- A validated frame: the lengths of R101, and the bytes are a payload followed by its own checksum, high byte first. -/
structure Frame.Valid (f : Frame) : Prop where
  lengths : f.LengthsAgree
  checksum : f.bytes = f.payload ++ trailerBytes (crcCompute f.payload)

/-! ## The invariant of reachable states -/

/-- What every reachable state satisfies: the canonical form of the buffer, inside its capacity; `0 <= wp <= C-1` on a
constructed decoder (R34, R114); every byte held was stored (R117); `rcrc == crc_compute(buf[0..max(wp-2,0)))` (R34,
R115); and every frame ever emitted was valid. -/
structure StateInv (s : State) : Prop where
  canonical : Memory.wf s.buf
  insideCapacity : ∀ c ∈ s.buf, c.1 < s.cap.toNat
  positionBound : s.initialised = true → s.wp.toNat < s.cap.toNat
  written : ∀ i < s.wp.toNat, (Memory.read s.buf i).isSome
  running : s.rcrc = crcCompute (s.bufPrefix (s.wp.toNat - 2))
  framesValid : ∀ f ∈ s.frames, f.Valid

/-- The byte sink holds whole frames only, each as the encoder sends it. -/
def SinkOfWholeFrames (s : State) : Prop := ∃ ps : List Bytes, s.sink = ps.flatMap wireFrame

/-- A constructed decoder whose position is inside its buffer: where every byte can be fed. -/
structure Ready (s : State) : Prop where
  constructed : s.initialised = true
  position : s.wp.toNat < s.cap.toNat

/-! ## What a storage step leaves (R112, R113) -/

/-- `t` is `s` after the byte `b` has been stored. The escape flag is not part of it. -/
structure Stores (b : Byte) (s t : State) : Prop where
  stored : t.bufAt s.wp.toNat = b
  otherBytes : ∀ i, i ≠ s.wp.toNat → t.bufAt i = s.bufAt i
  position : t.wp.toNat = if s.wp.toNat + 1 = s.cap.toNat then 0 else s.wp.toNat + 1
  running : t.rcrc = if s.wp.toNat + 1 = s.cap.toNat then 0xFFFF#16
    else if 2 ≤ s.wp.toNat then crcUpdate s.rcrc (s.bufAt (s.wp.toNat - 2)) else s.rcrc
  cap : t.cap = s.cap
  initialised : t.initialised = s.initialised
  outputs : t.outputs = s.outputs
  refusals : t.refusals = s.refusals
  pending : t.pending = s.pending

/-! ## Observation (D23) -/

/-- What a run is judged by: the outputs in order, the final decoder registers, the bytes held and the `refused` mark. -/
structure Observation where
  outputs : List Event
  cap : Half
  wp : Half
  esc : Bool
  rcrc : Half
  held : Bytes
  refused : Bool
deriving DecidableEq, Repr

/-- The observation of D23. -/
def State.observe (s : State) : Observation where
  outputs := s.outputs
  cap := s.cap
  wp := s.wp
  esc := s.esc
  rcrc := s.rcrc
  held := s.bufPrefix s.wp.toNat
  refused := s.refused

/-- Two states with the same observation, the same `initialised` mark and the same operations ahead. They may differ in
every buffer byte at or above `wp`. -/
structure SameView (s t : State) : Prop where
  observed : s.observe = t.observe
  initialised : s.initialised = t.initialised
  pending : s.pending = t.pending

/-! ## Sequences of operations -/

/-- `DEC_FEED` of each byte in turn. -/
def feedAll : Bytes → State → Outcome
  | [], s => .next s
  | b :: bs, s =>
    match exec (.decFeed b) s with
    | .next t => feedAll bs t
    | .fault f => .fault f
    | .refused r => .refused r

/-- `CRC_UPDATE` over a list, each result fed back as the next `RUN` (R85): the last running value and the state. -/
def streamCrc : Bytes → Half → State → Option (Half × State)
  | [], run, s => some (run, s)
  | b :: bs, run, s =>
    match exec (.crcUpdate run b) s with
    | .next t =>
      match t.results.getLast? with
      | some v => streamCrc bs v t
      | none => none
    | .fault _ => none
    | .refused _ => none

/-- The `DEC_FEED` commands of some bytes, as the host issues them (R65, R71). -/
def feedIssues (bs : Bytes) : List Issue := bs.map fun b => serialIssue (0x20000000#32 ||| b.setWidth 32) []

/-- A byte list with bit `k` of its element `i` flipped. -/
def flipBit (l : Bytes) (i k : Nat) : Bytes := l.modify i fun b => b ^^^ (1#8 <<< k)

/-- How many of some bytes must be stuffed (R61, R146). -/
def reservedCount (l : Bytes) : Nat := l.countP fun b => b == 0x7E#8 || b == 0x7D#8

end Sys2Proof.Machine
end

