-- ==== Sys2Proof/Certificates/Slice0/Obligations.lean ====
section
/-! DEFINITION. The statements for the provers. Nothing is proved here. -/

open Sys2Proof
open Sys2Proof.Machine

/-! ## Encoding -/

/-- Every well-formed instruction, of both formats, with every operand: decoding its encoding gives it back (R62, R65). -/
def Obligations.DecodeOfEncodeIsTheInstruction : Prop :=
  ∀ i : Instr, WellFormed i → decode (encode i) = .ok i

/-- Whatever decodes is well formed, and encoding it gives the words back; only the data operand that R67 says is ignored,
that of an opcode that takes none, is dropped. -/
def Obligations.EncodeOfDecodeIsTheWords : Prop :=
  (∀ (w : Word) (p : Bytes) (i : Instr), decode (.command w p) = .ok i →
    WellFormed i ∧ i.isCommand = true ∧
      encode i = .command w (if w.toNat / 2 ^ 28 = 4 ∨ w.toNat / 2 ^ 28 = 5 then p else [])) ∧
  (∀ (v : BitVec 9), ∃ i : Instr, decode (.decoderInput v) = .ok i ∧
    WellFormed i ∧ i.isCommand = false ∧ encode i = .decoderInput v)

/-- The decode function of R67, line by line, with the fields read by division: `OP = w / 2^28`, the must-be-zero
fields, and `CAP`, `N`, `RUN`, `B` zero-extended (R66). -/
def Obligations.CommandWordDecodesByFormat : Prop :=
  ∀ (w : Word) (p : Bytes),
    (w.toNat / 2 ^ 28 = 1 → w.toNat / 2 ^ 16 % 2 ^ 12 = 0 → w.toNat % 2 ^ 16 = 0 →
      decodeCommand w p = .error .badCapacity) ∧
    (w.toNat / 2 ^ 28 = 1 → w.toNat / 2 ^ 16 % 2 ^ 12 = 0 → w.toNat % 2 ^ 16 ≠ 0 →
      decodeCommand w p = .ok (.decInit (BitVec.ofNat 16 (w.toNat % 2 ^ 16)))) ∧
    (w.toNat / 2 ^ 28 = 2 → w.toNat / 2 ^ 8 % 2 ^ 20 = 0 →
      decodeCommand w p = .ok (.decFeed (BitVec.ofNat 8 (w.toNat % 2 ^ 8)))) ∧
    (w.toNat / 2 ^ 28 = 3 → w.toNat / 2 ^ 24 % 2 ^ 4 = 0 →
      decodeCommand w p
        = .ok (.crcUpdate (BitVec.ofNat 16 (w.toNat / 2 ^ 8 % 2 ^ 16)) (BitVec.ofNat 8 (w.toNat % 2 ^ 8)))) ∧
    (w.toNat / 2 ^ 28 = 4 → w.toNat / 2 ^ 16 % 2 ^ 12 = 0 → p.length ≠ w.toNat % 2 ^ 16 →
      decodeCommand w p = .error .lengthMismatch) ∧
    (w.toNat / 2 ^ 28 = 4 → w.toNat / 2 ^ 16 % 2 ^ 12 = 0 → p.length = w.toNat % 2 ^ 16 →
      decodeCommand w p = .ok (.crcCompute (BitVec.ofNat 16 (w.toNat % 2 ^ 16)) p)) ∧
    (w.toNat / 2 ^ 28 = 5 → w.toNat / 2 ^ 16 % 2 ^ 12 = 0 → p.length ≠ w.toNat % 2 ^ 16 →
      decodeCommand w p = .error .lengthMismatch) ∧
    (w.toNat / 2 ^ 28 = 5 → w.toNat / 2 ^ 16 % 2 ^ 12 = 0 → p.length = w.toNat % 2 ^ 16 →
      decodeCommand w p = .ok (.encEncode (BitVec.ofNat 16 (w.toNat % 2 ^ 16)) p)) ∧
    ((w.toNat / 2 ^ 28 = 1 ∨ w.toNat / 2 ^ 28 = 4 ∨ w.toNat / 2 ^ 28 = 5) → w.toNat / 2 ^ 16 % 2 ^ 12 ≠ 0 →
      decodeCommand w p = .error .reservedBits) ∧
    (w.toNat / 2 ^ 28 = 2 → w.toNat / 2 ^ 8 % 2 ^ 20 ≠ 0 → decodeCommand w p = .error .reservedBits) ∧
    (w.toNat / 2 ^ 28 = 3 → w.toNat / 2 ^ 24 % 2 ^ 4 ≠ 0 → decodeCommand w p = .error .reservedBits) ∧
    ((w.toNat / 2 ^ 28 = 0 ∨ 6 ≤ w.toNat / 2 ^ 28) → decodeCommand w p = .error .reservedOpcode)

/-- Sanity: words written out from the formats of R65 (V-CMD-1, 5, 7, 9, 12) and inputs from the rows of the table. -/
def Obligations.SampleEncodingsDecode : Prop :=
  decode (.command 0x10000008#32 []) = .ok (.decInit 8#16) ∧
  decode (.command 0x2000007E#32 []) = .ok (.decFeed 0x7E#8) ∧
  decode (.command 0x30FFFF41#32 []) = .ok (.crcUpdate 0xFFFF#16 0x41#8) ∧
  decode (.command 0x40000002#32 [0x41#8, 0x42#8]) = .ok (.crcCompute 2#16 [0x41#8, 0x42#8]) ∧
  decode (.command 0x50000001#32 [0x7E#8]) = .ok (.encEncode 1#16 [0x7E#8]) ∧
  decode (.decoderInput 0x17E#9) = .ok .boundaryAfterEscape ∧
  decode (.decoderInput 0x07E#9) = .ok .boundary ∧
  decode (.decoderInput 0x15E#9) = .ok (.escapedData 0x5E#8) ∧
  decode (.decoderInput 0x07D#9) = .ok .escape ∧
  decode (.decoderInput 0x041#9) = .ok (.data 0x41#8)

/-- A line of the assembler syntax issues words that decode to the operation it names (R71): `dec.init 0` to the refusal
`BAD_CAPACITY`, a byte list to an operand whose length is `N`, and `.word` to its word as it stands, with no data operand,
accepted or refused as decode says. A pseudo-instruction expands in the order shown (R72): `dec.feeds` to one `DEC_FEED` a
byte, `dec.sync` to two of 0x7E. -/
def Obligations.AssembledLinesDecode : Prop :=
  (∀ cap : Half, ∃ iss, AsmLine.issues (.decInit cap) = [iss] ∧
    accept iss = if cap = 0 then .error .badCapacity else .ok (.decInit cap)) ∧
  (∀ b : Byte, ∃ iss, AsmLine.issues (.decFeed b) = [iss] ∧ accept iss = .ok (.decFeed b)) ∧
  (∀ (run : Half) (b : Byte), ∃ iss, AsmLine.issues (.crcUpdate run b) = [iss] ∧ accept iss = .ok (.crcUpdate run b)) ∧
  (∀ p : Bytes, p.length < 2 ^ 16 → ∃ iss, AsmLine.issues (.crcCompute p) = [iss] ∧
    accept iss = .ok (.crcCompute (BitVec.ofNat 16 p.length) p)) ∧
  (∀ p : Bytes, p.length < 2 ^ 16 → ∃ iss, AsmLine.issues (.encEncode p) = [iss] ∧
    accept iss = .ok (.encEncode (BitVec.ofNat 16 p.length) p)) ∧
  (∀ w : Word, ∃ iss, AsmLine.issues (.word w) = [iss] ∧ iss.word = w ∧ iss.operand = [] ∧
    accept iss = decodeCommand w []) ∧
  (∀ bs : Bytes, (AsmLine.issues (.decFeeds bs)).map accept = bs.map fun b => .ok (.decFeed b)) ∧
  (AsmLine.issues .decSync).map accept = [.ok (.decFeed 0x7E#8), .ok (.decFeed 0x7E#8)]

/-! ## The step -/

/-- A step performs the oldest pending operation: for one issued serially whose word decodes to `i`, the step is `exec i` at
the state without that operation (R16, R50). -/
def Obligations.StepRunsTheDecodedInstruction : Prop :=
  ∀ (s : State) (w : Word) (p : Bytes) (rest : List Issue) (i : Instr),
    s.pending = ⟨w, p, .serial⟩ :: rest → decodeCommand w p = .ok i →
      step s = exec i { s with pending := rest }

/-- A step that performs a `DEC_FEED` runs the class of the pair of the flag and the byte fed (R62). -/
def Obligations.StepRunsTheInputClass : Prop :=
  ∀ (s : State) (w : Word) (p : Bytes) (rest : List Issue) (b : Byte) (i : Instr),
    s.pending = ⟨w, p, .serial⟩ :: rest → decodeCommand w p = .ok (.decFeed b) →
    decode (.decoderInput (BitVec.ofBool s.esc ++ b)) = .ok i →
      step s = exec i { s with pending := rest }

/-- The table word that is made the next operation is what the next step runs (the model's interface, log 15): a command
from the state itself, an input class from the state with the flag its row fixes. -/
def Obligations.StepRunsTheTableWord : Prop :=
  ∀ (s : State) (nbits w : Nat) (i : Instr), decodeTableWord nbits w = some i →
    (i.isCommand = true → step (s.withFetchWord nbits w) = exec i s) ∧
    (i.isCommand = false → step (s.withFetchWord nbits w) = exec i { s with esc := (w % 2 ^ nbits).testBit 8 })

/-- With nothing pending the block waits: the state stays (R174, R182). -/
def Obligations.StepWithNothingPendingWaits : Prop :=
  ∀ s : State, s.pending = [] → step s = .next s

/-- A word that decode refuses, whatever the reason, is refused by the step: the operation is gone, the reason is recorded,
no block state changes and nothing is emitted (R67, R69, R163). So it is for reserved opcodes, nonzero must-be-zero fields,
capacity 0 and a data operand of the wrong length. That these reasons are recorded before `CONCURRENT` and `REENTRANT`, for
a word that is not issued serially, is the model's choice (log 2, over the issue contexts of log 3). -/
def Obligations.ReservedWordsAreRefused : Prop :=
  ∀ (s : State) (w : Word) (p : Bytes) (c : IssueContext) (rest : List Issue), s.pending = ⟨w, p, c⟩ :: rest →
    (∀ r : RefusalReason, decodeCommand w p = .error r →
      step s = .next { s with pending := rest, refusals := s.refusals ++ [r] }) ∧
    (w.toNat / 2 ^ 28 = 1 → w.toNat / 2 ^ 16 % 2 ^ 12 = 0 → w.toNat % 2 ^ 16 = 0 →
      step s = .next { s with pending := rest, refusals := s.refusals ++ [.badCapacity] }) ∧
    ((w.toNat / 2 ^ 28 = 4 ∨ w.toNat / 2 ^ 28 = 5) → w.toNat / 2 ^ 16 % 2 ^ 12 = 0 → p.length ≠ w.toNat % 2 ^ 16 →
      step s = .next { s with pending := rest, refusals := s.refusals ++ [.lengthMismatch] }) ∧
    ((w.toNat / 2 ^ 28 = 0 ∨ 6 ≤ w.toNat / 2 ^ 28) →
      step s = .next { s with pending := rest, refusals := s.refusals ++ [.reservedOpcode] }) ∧
    ((w.toNat / 2 ^ 28 = 1 ∨ w.toNat / 2 ^ 28 = 4 ∨ w.toNat / 2 ^ 28 = 5) → w.toNat / 2 ^ 16 % 2 ^ 12 ≠ 0 →
      step s = .next { s with pending := rest, refusals := s.refusals ++ [.reservedBits] }) ∧
    (w.toNat / 2 ^ 28 = 2 → w.toNat / 2 ^ 8 % 2 ^ 20 ≠ 0 →
      step s = .next { s with pending := rest, refusals := s.refusals ++ [.reservedBits] }) ∧
    (w.toNat / 2 ^ 28 = 3 → w.toNat / 2 ^ 24 % 2 ^ 4 ≠ 0 →
      step s = .next { s with pending := rest, refusals := s.refusals ++ [.reservedBits] })

/-- Operations issued from inside a callback are refused, and decoder operations that overlap another one; an overlapping
operation of the CRC unit or the encoder runs (R163; the order of reasons is log 2, the issue context log 3). -/
def Obligations.OverlapAndReentryAreRefused : Prop :=
  ∀ (s : State) (w : Word) (p : Bytes) (rest : List Issue) (i : Instr), decodeCommand w p = .ok i →
    (s.pending = ⟨w, p, .insideCallback⟩ :: rest →
      step s = .next { s with pending := rest, refusals := s.refusals ++ [.reentrant] }) ∧
    (s.pending = ⟨w, p, .overlapping⟩ :: rest → i.isDecoderOp = true →
      step s = .next { s with pending := rest, refusals := s.refusals ++ [.concurrent] }) ∧
    (s.pending = ⟨w, p, .overlapping⟩ :: rest → i.isDecoderOp = false →
      step s = exec i { s with pending := rest })

/-- The refusals an operation itself raises (R163): capacity 0, an operand of the wrong length, a feed before the first
`DEC_INIT`. Only the list of reasons changes. Two parts are the model's: no step reaches the first two here, because decode
has refused the word before (log 14; ReservedWordsAreRefused says what the step does); and an input class run on its own,
with either value of the flag, is refused like the `DEC_FEED` that carries it (DESIGN CHOICE, log 8). -/
def Obligations.OperationsRefuseByName : Prop :=
  ∀ s : State,
    exec (.decInit 0) s = .next { s with refusals := s.refusals ++ [.badCapacity] } ∧
    (∀ (n : Half) (p : Bytes), p.length ≠ n.toNat →
      exec (.crcCompute n p) s = .next { s with refusals := s.refusals ++ [.lengthMismatch] } ∧
      exec (.encEncode n p) s = .next { s with refusals := s.refusals ++ [.lengthMismatch] }) ∧
    (s.initialised = false → ∀ b : Byte,
      exec (.decFeed b) s = .next { s with refusals := s.refusals ++ [.uninitialised] } ∧
      exec .boundaryAfterEscape s = .next { s with refusals := s.refusals ++ [.uninitialised] } ∧
      exec .boundary s = .next { s with refusals := s.refusals ++ [.uninitialised] } ∧
      exec (.escapedData b) s = .next { s with refusals := s.refusals ++ [.uninitialised] } ∧
      exec .escape s = .next { s with refusals := s.refusals ++ [.uninitialised] } ∧
      exec (.data b) s = .next { s with refusals := s.refusals ++ [.uninitialised] })

/-- No step takes back an output or a recorded refusal: the streams are append-only (R40) and the `refused` mark is never
cleared (R163). -/
def Obligations.OutputsAndRefusalsOnlyGrow : Prop :=
  ∀ s t : State, step s = .next t →
    s.outputs <+: t.outputs ∧ s.refusals <+: t.refusals ∧ (s.refused = true → t.refused = true)

/-- No step ends in a refusal, and the only stop is an access outside the buffer, which needs a constructed decoder whose
position its buffer does not have (R41; the fault is the model's, log 7). -/
def Obligations.OnlyAnAccessOutsideTheBufferStops : Prop :=
  ∀ s : State, (∃ t, step s = .next t) ∨
    (∃ k, step s = .fault (.outsideBuffer k) ∧ s.initialised = true ∧ s.cap.toNat ≤ k ∧ k ≤ s.wp.toNat)

/-! ## CRC unit -/

/-- `CRC_UPDATE` puts `crc_update(RUN, B)` on the result output and changes nothing else (R83). -/
def Obligations.CrcUpdateGivesItsResult : Prop :=
  ∀ (run : Half) (b : Byte) (s : State), ∃ t : State, exec (.crcUpdate run b) s = .next t ∧
    t = { s with outputs := s.outputs ++ [.result (crcUpdate run b)] } ∧
    t.results = s.results ++ [crcUpdate run b] ∧ t.sink = s.sink ∧ t.frames = s.frames

/-- `CRC_COMPUTE` puts `crc_compute(P)` on the result output and changes nothing else (R84). -/
def Obligations.CrcComputeGivesItsResult : Prop :=
  ∀ (n : Half) (p : Bytes) (s : State), p.length = n.toNat → ∃ t : State, exec (.crcCompute n p) s = .next t ∧
    t = { s with outputs := s.outputs ++ [.result (crcCompute p)] } ∧
    t.results = s.results ++ [crcCompute p] ∧ t.sink = s.sink ∧ t.frames = s.frames

/-- One byte added to the checksum, bit by bit as R80 writes it, is the byte-parallel form with no loop: with
`x = hi8(c) ^ b` and `y = x ^ (x >> 4)`, the result is `(c << 8) ^ (y << 12) ^ (y << 5) ^ y`. -/
def Obligations.BitSerialChecksumIsByteParallel : Prop :=
  ∀ (c : Half) (b : Byte),
    let x : Half := (c >>> 8) ^^^ b.setWidth 16
    let y : Half := x ^^^ (x >>> 4)
    crcUpdate c b = (c <<< 8) ^^^ (y <<< 12) ^^^ (y <<< 5) ^^^ y

/-- `crc_update` is linear over GF(2) in the pair of running value and byte, and maps (0, 0) to 0 (the spec's own
derivation, R81). -/
def Obligations.ChecksumUpdateIsLinear : Prop :=
  (∀ (c1 c2 : Half) (b1 b2 : Byte), crcUpdate (c1 ^^^ c2) (b1 ^^^ b2) = crcUpdate c1 b1 ^^^ crcUpdate c2 b2) ∧
  crcUpdate 0x0000#16 0x00#8 = 0x0000#16

/-- The checksum of a byte list: 0xFFFF for none, and one `crc_update` more for each further byte (the spec's own
derivation from its loop, R82). -/
def Obligations.ChecksumOfAListIsByRecurrence : Prop :=
  crcCompute [] = 0xFFFF#16 ∧ ∀ (l : Bytes) (b : Byte), crcCompute (l ++ [b]) = crcUpdate (crcCompute l) b

/-- Streaming equals batch: `CRC_UPDATE` over `L` from 0xFFFF, each result fed back, ends with the value `CRC_COMPUTE` of
`L` gives (the spec's own derivation, R85). -/
def Obligations.StreamingChecksumEqualsBatch : Prop :=
  ∀ (l : Bytes) (s : State),
    (∃ t, streamCrc l 0xFFFF#16 s = some (crcCompute l, t) ∧ t.results.length = s.results.length + l.length) ∧
    (∀ n : Half, l.length = n.toNat → ∃ u, exec (.crcCompute n l) s = .next u ∧ u.results.getLast? = some (crcCompute l))

/-- A decoder that holds a payload and the payload's checksum, high byte first, accepts it (the spec's own
derivation, R86). -/
def Obligations.FrameWithItsChecksumIsAccepted : Prop :=
  ∀ (s : State) (l : Bytes), s.wp.toNat = l.length + 2 →
    s.bufPrefix s.wp.toNat = l ++ [hi8 (crcCompute l), lo8 (crcCompute l)] → s.trailerMatches = true

/-- A decoder that holds a frame with one bit flipped, anywhere in payload or trailer, rejects it (R87, which the spec
takes from general knowledge of the polynomial). -/
def Obligations.FrameWithOneFlippedBitIsRejected : Prop :=
  ∀ (s : State) (l : Bytes) (i k : Nat), s.wp.toNat = l.length + 2 → i < l.length + 2 → k < 8 →
    s.bufPrefix s.wp.toNat = flipBit (l ++ [hi8 (crcCompute l), lo8 (crcCompute l)]) i k → s.trailerMatches = false

/-! ## Frame decoder: construction -/

/-- `DEC_INIT` with a nonzero capacity leaves the values of R32: `C`, `wp = 0`, `esc = false`, `rcrc = 0xFFFF`, and every
buffer byte a free value; the streams, the refusals and the pending operations stay. -/
def Obligations.DecInitLeavesAFreshDecoder : Prop :=
  ∀ (cap : Half) (s : State), cap ≠ 0 → ∃ t, exec (.decInit cap) s = .next t ∧
    t.cap = cap ∧ t.wp = 0 ∧ t.esc = false ∧ t.rcrc = 0xFFFF#16 ∧ t.initialised = true ∧
    (∀ i, t.bufAt i = Config.freeByte t.draws i) ∧
    t.outputs = s.outputs ∧ t.refusals = s.refusals ∧ t.pending = s.pending

/-- A second `DEC_INIT` with the same capacity yields the same state, except for the contents of the buffer (R47). -/
def Obligations.DecInitTwiceIsDecInit : Prop :=
  ∀ (cap : Half) (s t : State), cap ≠ 0 → exec (.decInit cap) s = .next t →
    ∃ u, exec (.decInit cap) t = .next u ∧ u = { t with buf := u.buf, draws := u.draws }

/-! ## Frame decoder: the byte step -/

/-- `DEC_FEED` does what the class of the pair of flag and byte does, tested in the order of R62 and R103; the five
conditions leave no pair out. -/
def Obligations.FeedDoesWhatItsClassDoes : Prop :=
  ∀ (b : Byte) (s : State),
    (b = 0x7E#8 → s.esc = true → exec (.decFeed b) s = exec .boundaryAfterEscape s) ∧
    (b = 0x7E#8 → s.esc = false → exec (.decFeed b) s = exec .boundary s) ∧
    (b ≠ 0x7E#8 → s.esc = true → exec (.decFeed b) s = exec (.escapedData b) s) ∧
    (b = 0x7D#8 → s.esc = false → exec (.decFeed b) s = exec .escape s) ∧
    (b ≠ 0x7E#8 → b ≠ 0x7D#8 → s.esc = false → exec (.decFeed b) s = exec (.data b) s)

/-- Every byte fed to a constructed decoder whose position is inside its buffer has a step (R68). -/
def Obligations.EveryByteCanBeFed : Prop :=
  ∀ (b : Byte) (s : State), Ready s → ∃ t, exec (.decFeed b) s = .next t ∧ Ready t ∧
    t.cap = s.cap ∧ t.refusals = s.refusals ∧ t.pending = s.pending

/-- A boundary octet while an escape is pending clears the escape, validates nothing whatever is held, and resets; no byte
is stored and nothing is emitted (R104). -/
def Obligations.BoundaryAfterEscapeIsAbsorbed : Prop :=
  ∀ s : State, s.initialised = true → s.esc = true →
    exec .boundaryAfterEscape s = .next { s with esc := false, wp := 0, rcrc := 0xFFFF#16 } ∧
    exec (.decFeed 0x7E#8) s = .next { s with esc := false, wp := 0, rcrc := 0xFFFF#16 }

/-- A boundary octet with two bytes or more held, the last two being the checksum of the rest with the high byte first:
exactly one frame event, of the bytes held, with `rawLength = wp` and `payloadLength = wp - 2`; then the reset; nothing
else changes (R105, R106, R107). -/
def Obligations.BoundaryDeliversAMatchingFrame : Prop :=
  ∀ s : State, s.initialised = true → s.esc = false → 2 ≤ s.wp.toNat → s.wp.toNat ≤ s.cap.toNat →
    (crcCompute (s.bufPrefix (s.wp.toNat - 2))).toNat
      = (s.bufAt (s.wp.toNat - 1)).toNat + 256 * (s.bufAt (s.wp.toNat - 2)).toNat →
    ∃ t, exec .boundary s = .next t ∧ exec (.decFeed 0x7E#8) s = .next t ∧
      t = { s with wp := 0, rcrc := 0xFFFF#16, outputs := s.outputs ++ [.frame
            { bytes := s.bufPrefix s.wp.toNat, rawLength := s.wp,
              payloadLength := BitVec.ofNat 16 (s.wp.toNat - 2) }] }

/-- A boundary octet with fewer than two bytes held, or whose trailer does not match, emits nothing and records nothing;
the decoder is reset and nothing else changes (R105, R108). -/
def Obligations.BoundaryDiscardsSilently : Prop :=
  ∀ s : State, s.initialised = true → s.esc = false →
    (s.wp.toNat < 2 ∨ (s.wp.toNat ≤ s.cap.toNat ∧
      (crcCompute (s.bufPrefix (s.wp.toNat - 2))).toNat
        ≠ (s.bufAt (s.wp.toNat - 1)).toNat + 256 * (s.bufAt (s.wp.toNat - 2)).toNat)) →
    exec .boundary s = .next { s with wp := 0, rcrc := 0xFFFF#16 } ∧
    exec (.decFeed 0x7E#8) s = .next { s with wp := 0, rcrc := 0xFFFF#16 }

/-- Whatever a boundary octet finds, afterwards `wp = 0`, `rcrc = 0xFFFF` and `esc` is false, and no byte of the buffer is
written (R109). The position is at most the capacity, the source's own range. -/
def Obligations.BoundaryAlwaysResets : Prop :=
  ∀ s : State, s.initialised = true → s.wp.toNat ≤ s.cap.toNat → ∃ t, exec (.decFeed 0x7E#8) s = .next t ∧
    t.wp = 0 ∧ t.rcrc = 0xFFFF#16 ∧ t.esc = false ∧ (∀ i, t.bufAt i = s.bufAt i) ∧
    t.cap = s.cap ∧ t.initialised = true ∧ t.refusals = s.refusals ∧ t.pending = s.pending

/-- A byte other than the boundary octet while an escape is pending: the flag is cleared and the byte XOR 0x20 goes
straight to storage, whatever its value (R110). -/
def Obligations.EscapedByteIsStoredUnescaped : Prop :=
  ∀ (b : Byte) (s : State), Ready s → s.esc = true → b ≠ 0x7E#8 → ∃ t,
    exec (.escapedData b) s = .next t ∧ exec (.decFeed b) s = .next t ∧
    t.esc = false ∧ Stores (b ^^^ 0x20#8) s t

/-- An escape octet while none is pending sets the flag and stores nothing; nothing else changes (R111). -/
def Obligations.EscapeOctetSetsTheFlag : Prop :=
  ∀ s : State, s.initialised = true → s.esc = false →
    exec .escape s = .next { s with esc := true } ∧ exec (.decFeed 0x7D#8) s = .next { s with esc := true }

/-- A plain byte is stored at `wp`; with two bytes or more held the running checksum takes the byte two positions back; the
position advances, and returns to 0 with the checksum at 0xFFFF when it reaches the capacity; the flag stays false, every
other byte stays, nothing is emitted (R112, R113). -/
def Obligations.DataByteIsStored : Prop :=
  ∀ (b : Byte) (s : State), Ready s → s.esc = false → b ≠ 0x7E#8 → b ≠ 0x7D#8 → ∃ t,
    exec (.data b) s = .next t ∧ exec (.decFeed b) s = .next t ∧ t.esc = false ∧ Stores b s t

/-- The stuffed form of a byte, fed to a decoder with no escape pending, stores exactly that byte (R61, R63). -/
def Obligations.StuffedByteIsStoredUnstuffed : Prop :=
  ∀ (x : Byte) (s : State), Ready s → s.esc = false → ∃ t, feedAll (stuff x) s = .next t ∧
    t.esc = false ∧ Stores x s t

/-- As many plain bytes as the buffer holds, fed from an empty position, are dropped: the position is 0 again, the checksum
0xFFFF, and nothing was emitted (R113). -/
def Obligations.FullBufferIsDroppedSilently : Prop :=
  ∀ (l : Bytes) (s : State), Ready s → s.wp = 0 → s.esc = false → l.length = s.cap.toNat →
    (∀ b ∈ l, b ≠ 0x7E#8 ∧ b ≠ 0x7D#8) → ∃ t, feedAll l s = .next t ∧
      t.wp = 0 ∧ t.rcrc = 0xFFFF#16 ∧ t.esc = false ∧ t.outputs = s.outputs

/-- After any `DEC_FEED` the flag is true exactly when the byte fed was 0x7D and the flag was false before it (the
spec's own derivation, R116). -/
def Obligations.FlagAfterAFeed : Prop :=
  ∀ (b : Byte) (s t : State), s.initialised = true → exec (.decFeed b) s = .next t →
    (t.esc = true ↔ b = 0x7D#8 ∧ s.esc = false)

/-- A feed emits at most one frame, and it emits one exactly when the byte is 0x7E, no escape is pending, two bytes or more
are held, and the trailer is the checksum of the rest (the spec's own derivation, R118). -/
def Obligations.FrameIsEmittedExactlyOnAMatch : Prop :=
  ∀ (b : Byte) (s t : State), s.initialised = true → exec (.decFeed b) s = .next t →
    (t.outputs = s.outputs ∨ ∃ f, t.outputs = s.outputs ++ [.frame f]) ∧
    ((∃ f, t.outputs = s.outputs ++ [.frame f]) ↔
      b = 0x7E#8 ∧ s.esc = false ∧ 2 ≤ s.wp.toNat ∧
      (crcCompute (s.bufPrefix (s.wp.toNat - 2))).toNat
        = (s.bufAt (s.wp.toNat - 1)).toNat + 256 * (s.bufAt (s.wp.toNat - 2)).toNat)

/-- From any decoder state one boundary octet leaves `wp = 0`, `esc = false`, `rcrc = 0xFFFF`; a second one then changes
nothing and emits nothing (the spec's own derivation, R119). -/
def Obligations.BoundaryResynchronises : Prop :=
  ∀ s : State, s.initialised = true → s.wp.toNat ≤ s.cap.toNat → ∃ t, exec (.decFeed 0x7E#8) s = .next t ∧
    t.wp = 0 ∧ t.esc = false ∧ t.rcrc = 0xFFFF#16 ∧ exec (.decFeed 0x7E#8) t = .next t

/-- The pseudo-instruction `dec.sync`, performed as the next two operations: `wp = 0`, `esc = false`, `rcrc = 0xFFFF`, and
at most one frame emitted, by its first feed (the spec's own derivation, R72). -/
def Obligations.DecSyncResynchronises : Prop :=
  ∀ (s : State) (rest : List Issue), s.initialised = true → s.wp.toNat ≤ s.cap.toNat →
    s.pending = AsmLine.issues .decSync ++ rest → ∃ t u, step s = .next t ∧ step t = .next u ∧
      u.wp = 0 ∧ u.esc = false ∧ u.rcrc = 0xFFFF#16 ∧ u.pending = rest ∧ u.outputs = t.outputs ∧
      (t.outputs = s.outputs ∨ ∃ f, t.outputs = s.outputs ++ [.frame f])

/-- A feed to a reachable decoder emits only a frame that fits: `rawLength <= C-1`, `payloadLength <= C-3`; with `C <= 2`
it emits none (the spec's own derivation, R114). -/
def Obligations.EmittedFrameFitsTheCapacity : Prop :=
  ∀ (b : Byte) (s t : State), StateInv s → s.initialised = true → exec (.decFeed b) s = .next t →
    (∀ f, t.outputs = s.outputs ++ [.frame f] →
      f.Valid ∧ f.rawLength.toNat + 1 ≤ s.cap.toNat ∧ f.payloadLength.toNat + 3 ≤ s.cap.toNat) ∧
    (s.cap.toNat ≤ 2 → t.outputs = s.outputs)

/-! ## Invariants and whole-machine rules -/

/-- The state after reset satisfies the invariant of reachable states, and its byte sink holds whole frames (none). The
values of `wp` and `rcrc` before the first `DEC_INIT` are the model's choice (log 5). -/
def Obligations.InvariantHoldsAtReset : Prop := StateInv State.reset ∧ SinkOfWholeFrames State.reset

/-- Every step keeps the invariant: canonical buffer inside its capacity, `wp <= C-1`, every byte held was stored,
`rcrc` is the checksum of all bytes held but the last two, every frame emitted is valid (the spec's own
derivations, R34, R114, R115). -/
def Obligations.EveryStepKeepsTheInvariant : Prop :=
  ∀ s t : State, StateInv s → step s = .next t → StateInv t

/-- Under the invariant every step goes on: no buffer index is ever outside `0..C-1` (the spec's own derivation,
R41), no operation fails (R160). -/
def Obligations.EveryStepGoesOnUnderTheInvariant : Prop :=
  ∀ s : State, StateInv s → ∃ t, step s = .next t

/-- Every step keeps the byte sink a sequence of whole frames as the encoder sends them (R51, R148). -/
def Obligations.EveryStepKeepsTheSinkWhole : Prop :=
  ∀ s t : State, SinkOfWholeFrames s → step s = .next t → SinkOfWholeFrames t

/-- Stale and unspecified buffer bytes are never observable: two states that agree in everything but buffer bytes at or
above `wp` agree again after a step (the spec's own derivation, R117). -/
def Obligations.StaleBytesAreNeverObservable : Prop :=
  ∀ s t s' : State, SameView s t → step s = .next s' → ∃ t', step t = .next t' ∧ SameView s' t'

/-- The running checksum drives nothing: with any other value in `rcrc` a step leaves the same state but for `rcrc` (R25). -/
def Obligations.RunningChecksumDrivesNothing : Prop :=
  ∀ (s t : State) (v : Half), step s = .next t → ∃ v', step { s with rcrc := v } = .next { t with rcrc := v' }

/-- At a boundary the running checksum is the recomputed one: under the invariant, with two bytes or more held, comparing
`rcrc` with the trailer gives the same outcome (the spec's own derivation, R115). -/
def Obligations.RunningChecksumIsTheRecomputation : Prop :=
  ∀ s : State, StateInv s → 2 ≤ s.wp.toNat →
    (s.trailerMatches = true ↔ s.rcrc.toNat = (s.bufAt (s.wp.toNat - 1)).toNat + 256 * (s.bufAt (s.wp.toNat - 2)).toNat)

/-- The CRC unit and the encoder touch no decoder state: `C`, `buf`, `wp`, `esc`, `rcrc` and the mark stay (R27, R28, R29). -/
def Obligations.CrcUnitAndEncoderLeaveTheDecoder : Prop :=
  ∀ (i : Instr) (s t : State), i.isDecoderOp = false → exec i s = .next t →
    t.cap = s.cap ∧ t.buf = s.buf ∧ (∀ k, t.bufAt k = s.bufAt k) ∧ t.wp = s.wp ∧ t.esc = s.esc ∧ t.rcrc = s.rcrc ∧
    t.initialised = s.initialised ∧ t.pending = s.pending

/-- Each output is written by one unit only: frames by `DEC_FEED` and its class BOUNDARY, sink bytes by `ENC_ENCODE`,
results by the CRC unit (R40, R64, R164). -/
def Obligations.EachOutputHasOneWriter : Prop :=
  ∀ (i : Instr) (s t : State), exec i s = .next t →
    (t.frames ≠ s.frames → i = .boundary ∨ i = .decFeed 0x7E#8) ∧
    (t.sink ≠ s.sink → ∃ n p, i = .encEncode n p) ∧
    (t.results ≠ s.results → (∃ run b, i = .crcUpdate run b) ∨ ∃ n p, i = .crcCompute n p)

/-- Only `DEC_INIT` writes the capacity, and only `DEC_INIT` constructs the decoder; nothing takes construction back (R21,
R35). -/
def Obligations.OnlyDecInitWritesTheCapacity : Prop :=
  ∀ (i : Instr) (s t : State), exec i s = .next t →
    (t.cap ≠ s.cap → i = .decInit t.cap) ∧ (s.initialised = true → t.initialised = true) ∧
    (s.initialised = false → t.initialised = true → ∃ cap, i = .decInit cap)

/-! ## Frame encoder -/

/-- `ENC_ENCODE` emits, in this order: 0x7E; each payload byte stuffed; the high byte and then the low byte of the
checksum of the raw payload, stuffed; 0x7E. Nothing else changes (R141 to R145). -/
def Obligations.EncodeEmitsTheWireFrame : Prop :=
  ∀ (n : Half) (p : Bytes) (s : State), p.length = n.toNat → ∃ t, exec (.encEncode n p) s = .next t ∧
    (let escaped : Byte → Bytes := fun x => if x = 0x7E#8 ∨ x = 0x7D#8 then [0x7D#8, x ^^^ 0x20#8] else [x];
      t.sink = s.sink ++ [0x7E#8] ++ p.flatMap escaped ++ escaped (BitVec.ofNat 8 ((crcCompute p).toNat / 256))
        ++ escaped (BitVec.ofNat 8 ((crcCompute p).toNat % 256)) ++ [0x7E#8]) ∧
    t = { s with outputs := t.outputs } ∧ t.frames = s.frames ∧ t.results = s.results ∧ s.outputs <+: t.outputs

/-- The stuffing of R61: 0x7E becomes 0x7D 0x5E, 0x7D becomes 0x7D 0x5D, every other byte travels plain. -/
def Obligations.StuffingReplacesTheReservedOctets : Prop :=
  stuff 0x7E#8 = [0x7D#8, 0x5E#8] ∧ stuff 0x7D#8 = [0x7D#8, 0x5D#8] ∧
  ∀ x : Byte, x ≠ 0x7E#8 → x ≠ 0x7D#8 → stuff x = [x]

/-- `ENC_ENCODE` emits exactly `N + 4 + k` bytes, `k` the number of payload and trailer bytes that are 0x7E or 0x7D, so
between `N + 4` and `2N + 6` (the spec's own derivation, R146). -/
def Obligations.EncodedLengthIsCounted : Prop :=
  ∀ (n : Half) (p : Bytes) (s : State), p.length = n.toNat → ∃ t, exec (.encEncode n p) s = .next t ∧
    t.sink.length
      = s.sink.length + n.toNat + 4 + reservedCount (p ++ [hi8 (crcCompute p), lo8 (crcCompute p)]) ∧
    s.sink.length + n.toNat + 4 ≤ t.sink.length ∧ t.sink.length ≤ s.sink.length + 2 * n.toNat + 6

/-- In what `ENC_ENCODE` emits, 0x7E stands exactly twice, first and last, and every 0x7D is followed by 0x5E or 0x5D
(the spec's own derivation, R147). -/
def Obligations.EncodedFrameIsTransparent : Prop :=
  ∀ (n : Half) (p : Bytes) (s : State), p.length = n.toNat → ∃ t w, exec (.encEncode n p) s = .next t ∧
    t.sink = s.sink ++ w ∧ w.count 0x7E#8 = 2 ∧ w.head? = some 0x7E#8 ∧ w.getLast? = some 0x7E#8 ∧
    ∀ k, w[k]? = some 0x7D#8 → w[k + 1]? = some 0x5E#8 ∨ w[k + 1]? = some 0x5D#8

/-- Two `ENC_ENCODE` with the same operands emit the same bytes, from whatever states (R148). -/
def Obligations.EncodingDependsOnItsOperandsOnly : Prop :=
  ∀ (n : Half) (p : Bytes) (s s' : State), p.length = n.toNat → ∃ t t' w,
    exec (.encEncode n p) s = .next t ∧ exec (.encEncode n p) s' = .next t' ∧
    t.sink = s.sink ++ w ∧ t'.sink = s'.sink ++ w

/-! ## Encoder and decoder together -/

/-- The round trip, with the corrected bound. What `ENC_ENCODE` emits for a payload `P`, fed byte by byte to a decoder in
any state that satisfies the invariant: the first byte is the boundary octet, and it emits at most one frame, of bytes held
before, which fits the capacity; from an empty position it emits none. With `len(P) <= C-3` the bytes after it store exactly
`P` and its trailer and emit exactly one frame, that of `P`. With `len(P) = C-2` they emit nothing, and the frame of `P` is
not what the first byte emitted (the spec's own derivation, R149, 90_conflicts.md C1). -/
def Obligations.EncodedFrameRoundTrips : Prop :=
  ∀ (n : Half) (p w : Bytes) (e e' s : State), p.length = n.toNat →
    exec (.encEncode n p) e = .next e' → e'.sink = e.sink ++ w → StateInv s → s.initialised = true →
    let frame : Event := .frame
      { bytes := p ++ [hi8 (crcCompute p), lo8 (crcCompute p)],
        rawLength := BitVec.ofNat 16 (p.length + 2), payloadLength := n };
    ∃ o before, w = 0x7E#8 :: w.tail ∧ exec (.decFeed 0x7E#8) s = .next o ∧ o.outputs = s.outputs ++ before ∧
      (before = [] ∨ ∃ f, before = [.frame f] ∧ f.rawLength.toNat + 1 ≤ s.cap.toNat) ∧ (s.wp = 0 → before = []) ∧
      (p.length + 3 ≤ s.cap.toNat → ∃ t, feedAll w.tail o = .next t ∧ feedAll w s = .next t ∧
        t.outputs = s.outputs ++ before ++ [frame] ∧
        t.bufPrefix (p.length + 2) = p ++ [hi8 (crcCompute p), lo8 (crcCompute p)] ∧
        t.wp = 0 ∧ t.esc = false ∧ t.rcrc = 0xFFFF#16) ∧
      (p.length + 2 = s.cap.toNat → ∃ t, feedAll w.tail o = .next t ∧ feedAll w s = .next t ∧
        t.outputs = s.outputs ++ before ∧ frame ∉ before ∧
        t.wp = 0 ∧ t.esc = false ∧ t.rcrc = 0xFFFF#16)

/-- A run of as many steps as there are pending `DEC_FEED` commands feeds their bytes in the order of issue (R50). -/
def Obligations.PendingFeedsArePerformedInOrder : Prop :=
  ∀ (bs : Bytes) (s : State), s.pending = feedIssues bs →
    Host.Core.run Sys2Proof.core bs.length s = feedAll bs { s with pending := [] }
end

