-- ==== Sys2Proof/Laws/Decode.lean ====
section
/-! SUPPORT. The fields of a command word read back from the formats of 30_encoding.md R65, and a word put together
again from its fields. -/

namespace Sys2Proof

/-! ### Fields read back -/

/-- Bits of an appended word, high part. -/
theorem extract_append_high {m n : Nat} (a : BitVec m) (b : BitVec n) (k l : Nat) (h : n ≤ k) :
    (a ++ b).extractLsb' k l = a.extractLsb' (k - n) l := by
  ext i hi
  have h1 : ¬ (k + i < n) := by omega
  have h2 : k + i - n = k - n + i := by omega
  simp [BitVec.getElem_extractLsb', BitVec.getLsbD_append, h1, h2]

/-- Bits of an appended word, low part. -/
theorem extract_append_low {m n : Nat} (a : BitVec m) (b : BitVec n) (k l : Nat) (h : k + l ≤ n) :
    (a ++ b).extractLsb' k l = b.extractLsb' k l := by
  ext i hi
  have h1 : k + i < n := by omega
  simp [BitVec.getElem_extractLsb', BitVec.getLsbD_append, h1]

/-- All bits of a value. -/
theorem extract_all {n : Nat} (a : BitVec n) : a.extractLsb' 0 n = a := by
  ext i hi
  simp

/-- Two neighbouring fields are one field. -/
theorem extract_append_extract {w : Nat} (v : BitVec w) (k m n : Nat) :
    v.extractLsb' (k + m) n ++ v.extractLsb' k m = v.extractLsb' k (n + m) := by
  ext i hi
  simp only [BitVec.getElem_extractLsb', BitVec.getElem_append]
  split
  · rfl
  · rename_i h
    congr 1
    omega

@[simp] theorem Field.op_format16 (o : BitVec 4) (x : Half) : Field.op (format16 o x) = o := by
  unfold Field.op format16
  rw [extract_append_high _ _ _ _ (by decide), extract_append_high _ _ _ _ (by decide)]
  exact extract_all _

@[simp] theorem Field.zeroAbove16_format16 (o : BitVec 4) (x : Half) : Field.zeroAbove16 (format16 o x) = 0 := by
  unfold Field.zeroAbove16 format16
  rw [extract_append_high _ _ _ _ (by decide), extract_append_low _ _ _ _ (by decide)]
  exact extract_all _

@[simp] theorem Field.low16_format16 (o : BitVec 4) (x : Half) : Field.low16 (format16 o x) = x := by
  unfold Field.low16 format16
  rw [extract_append_low _ _ _ _ (by decide)]
  exact extract_all _

@[simp] theorem Field.op_format8 (o : BitVec 4) (b : Byte) : Field.op (format8 o b) = o := by
  unfold Field.op format8
  rw [extract_append_high _ _ _ _ (by decide), extract_append_high _ _ _ _ (by decide)]
  exact extract_all _

@[simp] theorem Field.zeroAbove8_format8 (o : BitVec 4) (b : Byte) : Field.zeroAbove8 (format8 o b) = 0 := by
  unfold Field.zeroAbove8 format8
  rw [extract_append_high _ _ _ _ (by decide), extract_append_low _ _ _ _ (by decide)]
  exact extract_all _

@[simp] theorem Field.byte_format8 (o : BitVec 4) (b : Byte) : Field.byte (format8 o b) = b := by
  unfold Field.byte format8
  rw [extract_append_low _ _ _ _ (by decide)]
  exact extract_all _

@[simp] theorem Field.op_format24 (o : BitVec 4) (r : Half) (b : Byte) : Field.op (format24 o r b) = o := by
  unfold Field.op format24
  rw [extract_append_high _ _ _ _ (by decide), extract_append_high _ _ _ _ (by decide), extract_append_high _ _ _ _ (by decide)]
  exact extract_all _

@[simp] theorem Field.zeroAbove24_format24 (o : BitVec 4) (r : Half) (b : Byte) : Field.zeroAbove24 (format24 o r b) = 0 := by
  unfold Field.zeroAbove24 format24
  rw [extract_append_high _ _ _ _ (by decide), extract_append_high _ _ _ _ (by decide), extract_append_low _ _ _ _ (by decide)]
  exact extract_all _

@[simp] theorem Field.run_format24 (o : BitVec 4) (r : Half) (b : Byte) : Field.run (format24 o r b) = r := by
  unfold Field.run format24
  rw [extract_append_high _ _ _ _ (by decide), extract_append_low _ _ _ _ (by decide)]
  exact extract_all _

@[simp] theorem Field.byte_format24 (o : BitVec 4) (r : Half) (b : Byte) : Field.byte (format24 o r b) = b := by
  unfold Field.byte format24
  rw [extract_append_low _ _ _ _ (by decide)]
  exact extract_all _

/-! ### A word put together again -/

theorem word_of_format16 (w : Word) (h : Field.zeroAbove16 w = 0) : format16 (Field.op w) (Field.low16 w) = w := by
  have h' : 0x000#12 = Field.zeroAbove16 w := h.symm
  unfold format16
  rw [h']
  have h1 := extract_append_extract w 16 12 4
  have h2 := extract_append_extract w 0 16 16
  simp only [Nat.zero_add] at h2
  show w.extractLsb' 28 4 ++ w.extractLsb' 16 12 ++ w.extractLsb' 0 16 = w
  rw [h1, h2]
  exact extract_all w

theorem word_of_format8 (w : Word) (h : Field.zeroAbove8 w = 0) : format8 (Field.op w) (Field.byte w) = w := by
  have h' : 0x00000#20 = Field.zeroAbove8 w := h.symm
  unfold format8
  rw [h']
  have h1 := extract_append_extract w 8 20 4
  have h2 := extract_append_extract w 0 8 24
  simp only [Nat.zero_add] at h2
  show w.extractLsb' 28 4 ++ w.extractLsb' 8 20 ++ w.extractLsb' 0 8 = w
  rw [h1, h2]
  exact extract_all w

theorem word_of_format24 (w : Word) (h : Field.zeroAbove24 w = 0) : format24 (Field.op w) (Field.run w) (Field.byte w) = w := by
  have h' : 0x0#4 = Field.zeroAbove24 w := h.symm
  unfold format24
  rw [h']
  have h1 := extract_append_extract w 24 4 4
  have h2 := extract_append_extract w 8 16 8
  have h3 := extract_append_extract w 0 8 24
  show w.extractLsb' 28 4 ++ w.extractLsb' 24 4 ++ w.extractLsb' 8 16 ++ w.extractLsb' 0 8 = w
  rw [h1, h2, h3]
  exact extract_all w

/-! ### Fields as numbers -/

theorem Field.op_eq_iff (w : Word) (k : Nat) (hk : k < 16) : Field.op w = BitVec.ofNat 4 k ↔ w.toNat / 2 ^ 28 = k := by
  have := w.isLt
  rw [BitVec.toNat_eq]
  simp only [Field.op, BitVec.extractLsb'_toNat, Nat.shiftRight_eq_div_pow, BitVec.toNat_ofNat]
  omega

theorem Field.zeroAbove16_eq_zero (w : Word) : Field.zeroAbove16 w = 0 ↔ w.toNat / 2 ^ 16 % 2 ^ 12 = 0 := by
  rw [BitVec.toNat_eq]
  simp [Field.zeroAbove16, BitVec.extractLsb'_toNat, Nat.shiftRight_eq_div_pow]

theorem Field.zeroAbove8_eq_zero (w : Word) : Field.zeroAbove8 w = 0 ↔ w.toNat / 2 ^ 8 % 2 ^ 20 = 0 := by
  rw [BitVec.toNat_eq]
  simp [Field.zeroAbove8, BitVec.extractLsb'_toNat, Nat.shiftRight_eq_div_pow]

theorem Field.zeroAbove24_eq_zero (w : Word) : Field.zeroAbove24 w = 0 ↔ w.toNat / 2 ^ 24 % 2 ^ 4 = 0 := by
  rw [BitVec.toNat_eq]
  simp [Field.zeroAbove24, BitVec.extractLsb'_toNat, Nat.shiftRight_eq_div_pow]

theorem Field.low16_toNat (w : Word) : (Field.low16 w).toNat = w.toNat % 2 ^ 16 := by
  simp [Field.low16, BitVec.extractLsb'_toNat]

theorem Field.low16_eq_ofNat (w : Word) : Field.low16 w = BitVec.ofNat 16 (w.toNat % 2 ^ 16) :=
  BitVec.eq_of_toNat_eq (by simp [Field.low16_toNat])

theorem Field.byte_eq_ofNat (w : Word) : Field.byte w = BitVec.ofNat 8 (w.toNat % 2 ^ 8) :=
  BitVec.eq_of_toNat_eq (by simp [Field.byte, BitVec.extractLsb'_toNat])

theorem Field.run_eq_ofNat (w : Word) : Field.run w = BitVec.ofNat 16 (w.toNat / 2 ^ 8 % 2 ^ 16) :=
  BitVec.eq_of_toNat_eq (by simp [Field.run, BitVec.extractLsb'_toNat, Nat.shiftRight_eq_div_pow])

/-! ### The decoder's input value -/

theorem decode_inputValue : ∀ b : Byte, decode (.decoderInput (inputValue 1 b)) = .ok (classify true b)
    ∧ decode (.decoderInput (inputValue 0 b)) = .ok (classify false b) := by
  decide +kernel

/-! ### Everything the command decoder can answer -/

/-- A word that decodes is on one of the five formats, with its must-be-zero field zero and its own side condition. -/
theorem decodeCommand_eq_ok {w : Word} {p : Bytes} {i : Instr} (h : decodeCommand w p = .ok i) :
    (Field.op w = 0x1#4 ∧ Field.zeroAbove16 w = 0 ∧ Field.low16 w ≠ 0 ∧ i = .decInit (Field.low16 w))
    ∨ (Field.op w = 0x2#4 ∧ Field.zeroAbove8 w = 0 ∧ i = .decFeed (Field.byte w))
    ∨ (Field.op w = 0x3#4 ∧ Field.zeroAbove24 w = 0 ∧ i = .crcUpdate (Field.run w) (Field.byte w))
    ∨ (Field.op w = 0x4#4 ∧ Field.zeroAbove16 w = 0 ∧ p.length = (Field.low16 w).toNat ∧ i = .crcCompute (Field.low16 w) p)
    ∨ (Field.op w = 0x5#4 ∧ Field.zeroAbove16 w = 0 ∧ p.length = (Field.low16 w).toNat
      ∧ i = .encEncode (Field.low16 w) p) := by
  unfold decodeCommand at h
  repeat' split at h
  all_goals first
    | cases h; done
    | skip
  all_goals injection h with h
  all_goals simp_all

end Sys2Proof
end

