-- ==== Sys2Proof/Laws/State.lean ====
section
/-! SUPPORT. One lemma per field per update of the state, and what each update does to the views of the outputs. -/

namespace Sys2Proof.Machine

variable (s : State) (b : Byte) (es : List Event) (r : RefusalReason)

/-! ### setEscape -/

@[simp] theorem State.setEscape_cap : (s.setEscape).cap = s.cap := rfl
@[simp] theorem State.setEscape_buf : (s.setEscape).buf = s.buf := rfl
@[simp] theorem State.setEscape_wp : (s.setEscape).wp = s.wp := rfl
@[simp] theorem State.setEscape_esc : (s.setEscape).esc = true := rfl
@[simp] theorem State.setEscape_rcrc : (s.setEscape).rcrc = s.rcrc := rfl
@[simp] theorem State.setEscape_initialised : (s.setEscape).initialised = s.initialised := rfl
@[simp] theorem State.setEscape_draws : (s.setEscape).draws = s.draws := rfl
@[simp] theorem State.setEscape_outputs : (s.setEscape).outputs = s.outputs := rfl
@[simp] theorem State.setEscape_refusals : (s.setEscape).refusals = s.refusals := rfl
@[simp] theorem State.setEscape_pending : (s.setEscape).pending = s.pending := rfl

/-! ### clearEscape -/

@[simp] theorem State.clearEscape_cap : (s.clearEscape).cap = s.cap := rfl
@[simp] theorem State.clearEscape_buf : (s.clearEscape).buf = s.buf := rfl
@[simp] theorem State.clearEscape_wp : (s.clearEscape).wp = s.wp := rfl
@[simp] theorem State.clearEscape_esc : (s.clearEscape).esc = false := rfl
@[simp] theorem State.clearEscape_rcrc : (s.clearEscape).rcrc = s.rcrc := rfl
@[simp] theorem State.clearEscape_initialised : (s.clearEscape).initialised = s.initialised := rfl
@[simp] theorem State.clearEscape_draws : (s.clearEscape).draws = s.draws := rfl
@[simp] theorem State.clearEscape_outputs : (s.clearEscape).outputs = s.outputs := rfl
@[simp] theorem State.clearEscape_refusals : (s.clearEscape).refusals = s.refusals := rfl
@[simp] theorem State.clearEscape_pending : (s.clearEscape).pending = s.pending := rfl

/-! ### drawBuffer -/

@[simp] theorem State.drawBuffer_cap : (s.drawBuffer).cap = s.cap := rfl
@[simp] theorem State.drawBuffer_buf : (s.drawBuffer).buf = [] := rfl
@[simp] theorem State.drawBuffer_wp : (s.drawBuffer).wp = s.wp := rfl
@[simp] theorem State.drawBuffer_esc : (s.drawBuffer).esc = s.esc := rfl
@[simp] theorem State.drawBuffer_rcrc : (s.drawBuffer).rcrc = s.rcrc := rfl
@[simp] theorem State.drawBuffer_initialised : (s.drawBuffer).initialised = s.initialised := rfl
@[simp] theorem State.drawBuffer_draws : (s.drawBuffer).draws = s.draws + 1 := rfl
@[simp] theorem State.drawBuffer_outputs : (s.drawBuffer).outputs = s.outputs := rfl
@[simp] theorem State.drawBuffer_refusals : (s.drawBuffer).refusals = s.refusals := rfl
@[simp] theorem State.drawBuffer_pending : (s.drawBuffer).pending = s.pending := rfl

/-! ### writeAtPosition -/

@[simp] theorem State.writeAtPosition_cap : (s.writeAtPosition b).cap = s.cap := rfl
@[simp] theorem State.writeAtPosition_buf : (s.writeAtPosition b).buf = Memory.write s.buf s.wp.toNat b := rfl
@[simp] theorem State.writeAtPosition_wp : (s.writeAtPosition b).wp = s.wp := rfl
@[simp] theorem State.writeAtPosition_esc : (s.writeAtPosition b).esc = s.esc := rfl
@[simp] theorem State.writeAtPosition_rcrc : (s.writeAtPosition b).rcrc = s.rcrc := rfl
@[simp] theorem State.writeAtPosition_initialised : (s.writeAtPosition b).initialised = s.initialised := rfl
@[simp] theorem State.writeAtPosition_draws : (s.writeAtPosition b).draws = s.draws := rfl
@[simp] theorem State.writeAtPosition_outputs : (s.writeAtPosition b).outputs = s.outputs := rfl
@[simp] theorem State.writeAtPosition_refusals : (s.writeAtPosition b).refusals = s.refusals := rfl
@[simp] theorem State.writeAtPosition_pending : (s.writeAtPosition b).pending = s.pending := rfl

/-! ### emit -/

@[simp] theorem State.emit_cap : (s.emit es).cap = s.cap := rfl
@[simp] theorem State.emit_buf : (s.emit es).buf = s.buf := rfl
@[simp] theorem State.emit_wp : (s.emit es).wp = s.wp := rfl
@[simp] theorem State.emit_esc : (s.emit es).esc = s.esc := rfl
@[simp] theorem State.emit_rcrc : (s.emit es).rcrc = s.rcrc := rfl
@[simp] theorem State.emit_initialised : (s.emit es).initialised = s.initialised := rfl
@[simp] theorem State.emit_draws : (s.emit es).draws = s.draws := rfl
@[simp] theorem State.emit_outputs : (s.emit es).outputs = s.outputs ++ es := rfl
@[simp] theorem State.emit_refusals : (s.emit es).refusals = s.refusals := rfl
@[simp] theorem State.emit_pending : (s.emit es).pending = s.pending := rfl

/-! ### refuse -/

@[simp] theorem State.refuse_cap : (s.refuse r).cap = s.cap := rfl
@[simp] theorem State.refuse_buf : (s.refuse r).buf = s.buf := rfl
@[simp] theorem State.refuse_wp : (s.refuse r).wp = s.wp := rfl
@[simp] theorem State.refuse_esc : (s.refuse r).esc = s.esc := rfl
@[simp] theorem State.refuse_rcrc : (s.refuse r).rcrc = s.rcrc := rfl
@[simp] theorem State.refuse_initialised : (s.refuse r).initialised = s.initialised := rfl
@[simp] theorem State.refuse_draws : (s.refuse r).draws = s.draws := rfl
@[simp] theorem State.refuse_outputs : (s.refuse r).outputs = s.outputs := rfl
@[simp] theorem State.refuse_refusals : (s.refuse r).refusals = s.refusals ++ [r] := rfl
@[simp] theorem State.refuse_pending : (s.refuse r).pending = s.pending := rfl

/-! ### resetPosition -/

@[simp] theorem State.resetPosition_cap : (s.resetPosition).cap = s.cap := rfl
@[simp] theorem State.resetPosition_buf : (s.resetPosition).buf = s.buf := rfl
@[simp] theorem State.resetPosition_wp : (s.resetPosition).wp = 0 := rfl
@[simp] theorem State.resetPosition_esc : (s.resetPosition).esc = s.esc := rfl
@[simp] theorem State.resetPosition_rcrc : (s.resetPosition).rcrc = Config.crcInit := rfl
@[simp] theorem State.resetPosition_initialised : (s.resetPosition).initialised = s.initialised := rfl
@[simp] theorem State.resetPosition_draws : (s.resetPosition).draws = s.draws := rfl
@[simp] theorem State.resetPosition_outputs : (s.resetPosition).outputs = s.outputs := rfl
@[simp] theorem State.resetPosition_refusals : (s.resetPosition).refusals = s.refusals := rfl
@[simp] theorem State.resetPosition_pending : (s.resetPosition).pending = s.pending := rfl

/-! ### advance -/

@[simp] theorem State.advance_cap : (s.advance).cap = s.cap := rfl
@[simp] theorem State.advance_buf : (s.advance).buf = s.buf := rfl
@[simp] theorem State.advance_wp : (s.advance).wp = s.wp + 1 := rfl
@[simp] theorem State.advance_esc : (s.advance).esc = s.esc := rfl
@[simp] theorem State.advance_rcrc : (s.advance).rcrc = s.rcrc := rfl
@[simp] theorem State.advance_initialised : (s.advance).initialised = s.initialised := rfl
@[simp] theorem State.advance_draws : (s.advance).draws = s.draws := rfl
@[simp] theorem State.advance_outputs : (s.advance).outputs = s.outputs := rfl
@[simp] theorem State.advance_refusals : (s.advance).refusals = s.refusals := rfl
@[simp] theorem State.advance_pending : (s.advance).pending = s.pending := rfl

/-! ### updateRunning -/

@[simp] theorem State.updateRunning_cap : s.updateRunning.cap = s.cap := by unfold State.updateRunning; split <;> rfl
@[simp] theorem State.updateRunning_buf : s.updateRunning.buf = s.buf := by unfold State.updateRunning; split <;> rfl
@[simp] theorem State.updateRunning_wp : s.updateRunning.wp = s.wp := by unfold State.updateRunning; split <;> rfl
@[simp] theorem State.updateRunning_esc : s.updateRunning.esc = s.esc := by unfold State.updateRunning; split <;> rfl
@[simp] theorem State.updateRunning_initialised : s.updateRunning.initialised = s.initialised := by unfold State.updateRunning; split <;> rfl
@[simp] theorem State.updateRunning_draws : s.updateRunning.draws = s.draws := by unfold State.updateRunning; split <;> rfl
@[simp] theorem State.updateRunning_outputs : s.updateRunning.outputs = s.outputs := by unfold State.updateRunning; split <;> rfl
@[simp] theorem State.updateRunning_refusals : s.updateRunning.refusals = s.refusals := by unfold State.updateRunning; split <;> rfl
@[simp] theorem State.updateRunning_pending : s.updateRunning.pending = s.pending := by unfold State.updateRunning; split <;> rfl

/-! ### overflowGuard -/

@[simp] theorem State.overflowGuard_cap : s.overflowGuard.cap = s.cap := by unfold State.overflowGuard; split <;> rfl
@[simp] theorem State.overflowGuard_buf : s.overflowGuard.buf = s.buf := by unfold State.overflowGuard; split <;> rfl
@[simp] theorem State.overflowGuard_esc : s.overflowGuard.esc = s.esc := by unfold State.overflowGuard; split <;> rfl
@[simp] theorem State.overflowGuard_initialised : s.overflowGuard.initialised = s.initialised := by unfold State.overflowGuard; split <;> rfl
@[simp] theorem State.overflowGuard_draws : s.overflowGuard.draws = s.draws := by unfold State.overflowGuard; split <;> rfl
@[simp] theorem State.overflowGuard_outputs : s.overflowGuard.outputs = s.outputs := by unfold State.overflowGuard; split <;> rfl
@[simp] theorem State.overflowGuard_refusals : s.overflowGuard.refusals = s.refusals := by unfold State.overflowGuard; split <;> rfl
@[simp] theorem State.overflowGuard_pending : s.overflowGuard.pending = s.pending := by unfold State.overflowGuard; split <;> rfl

theorem State.updateRunning_rcrc : s.updateRunning.rcrc
    = if 2 ≤ s.wp.toNat then crcUpdate s.rcrc (s.bufAt (s.wp.toNat - 2)) else s.rcrc := by
  unfold State.updateRunning; split <;> rfl

theorem State.overflowGuard_wp : s.overflowGuard.wp = if s.wp = s.cap then 0 else s.wp := by
  unfold State.overflowGuard; split <;> rfl

theorem State.overflowGuard_rcrc : s.overflowGuard.rcrc = if s.wp = s.cap then Config.crcInit else s.rcrc := by
  unfold State.overflowGuard; split <;> rfl

/-! ### Views -/

@[simp] theorem State.emit_sink : (s.emit es).sink = s.sink ++ es.filterMap Event.sinkByte? := by
  simp [State.sink]

theorem State.sink_congr (t : State) (h : s.outputs = t.outputs) : s.sink = t.sink := by simp [State.sink, h]

@[simp] theorem State.setEscape_sink : (s.setEscape).sink = s.sink := rfl
@[simp] theorem State.clearEscape_sink : (s.clearEscape).sink = s.sink := rfl
@[simp] theorem State.drawBuffer_sink : (s.drawBuffer).sink = s.sink := rfl
@[simp] theorem State.writeAtPosition_sink : (s.writeAtPosition b).sink = s.sink := rfl
@[simp] theorem State.refuse_sink : (s.refuse r).sink = s.sink := rfl
@[simp] theorem State.resetPosition_sink : (s.resetPosition).sink = s.sink := rfl
@[simp] theorem State.advance_sink : (s.advance).sink = s.sink := rfl
@[simp] theorem State.updateRunning_sink : s.updateRunning.sink = s.sink := State.sink_congr _ _ (by simp)
@[simp] theorem State.overflowGuard_sink : s.overflowGuard.sink = s.sink := State.sink_congr _ _ (by simp)

@[simp] theorem State.emit_frames : (s.emit es).frames = s.frames ++ es.filterMap Event.frame? := by
  simp [State.frames]

theorem State.frames_congr (t : State) (h : s.outputs = t.outputs) : s.frames = t.frames := by simp [State.frames, h]

@[simp] theorem State.setEscape_frames : (s.setEscape).frames = s.frames := rfl
@[simp] theorem State.clearEscape_frames : (s.clearEscape).frames = s.frames := rfl
@[simp] theorem State.drawBuffer_frames : (s.drawBuffer).frames = s.frames := rfl
@[simp] theorem State.writeAtPosition_frames : (s.writeAtPosition b).frames = s.frames := rfl
@[simp] theorem State.refuse_frames : (s.refuse r).frames = s.frames := rfl
@[simp] theorem State.resetPosition_frames : (s.resetPosition).frames = s.frames := rfl
@[simp] theorem State.advance_frames : (s.advance).frames = s.frames := rfl
@[simp] theorem State.updateRunning_frames : s.updateRunning.frames = s.frames := State.frames_congr _ _ (by simp)
@[simp] theorem State.overflowGuard_frames : s.overflowGuard.frames = s.frames := State.frames_congr _ _ (by simp)

@[simp] theorem State.emit_results : (s.emit es).results = s.results ++ es.filterMap Event.result? := by
  simp [State.results]

theorem State.results_congr (t : State) (h : s.outputs = t.outputs) : s.results = t.results := by simp [State.results, h]

@[simp] theorem State.setEscape_results : (s.setEscape).results = s.results := rfl
@[simp] theorem State.clearEscape_results : (s.clearEscape).results = s.results := rfl
@[simp] theorem State.drawBuffer_results : (s.drawBuffer).results = s.results := rfl
@[simp] theorem State.writeAtPosition_results : (s.writeAtPosition b).results = s.results := rfl
@[simp] theorem State.refuse_results : (s.refuse r).results = s.results := rfl
@[simp] theorem State.resetPosition_results : (s.resetPosition).results = s.results := rfl
@[simp] theorem State.advance_results : (s.advance).results = s.results := rfl
@[simp] theorem State.updateRunning_results : s.updateRunning.results = s.results := State.results_congr _ _ (by simp)
@[simp] theorem State.overflowGuard_results : s.overflowGuard.results = s.results := State.results_congr _ _ (by simp)

end Sys2Proof.Machine
end

