-- ==== Sys2Proof/Laws/Memory.lean ====
section
/-! SUPPORT. The laws of the decoder buffer: what a read gives after a write, and that a write keeps the canonical form. -/

namespace Sys2Proof.Machine

variable {m : Memory} {a i : Nat} {v : Byte}

theorem Memory.read_write_same (m : Memory) (a : Nat) (v : Byte) : Memory.read (Memory.write m a v) a = some v := by
  induction m with
  | nil => simp [Memory.write, Memory.read]
  | cons c m ih =>
    simp only [Memory.write]
    split
    · simp [Memory.read]
    · split
      · simp [Memory.read]
      · rename_i hlt hne
        simp [Memory.read, hne, ih]

theorem Memory.read_write_other (m : Memory) (v : Byte) (h : i ≠ a) :
    Memory.read (Memory.write m a v) i = Memory.read m i := by
  induction m with
  | nil => simp [Memory.write, Memory.read, h]
  | cons c m ih =>
    simp only [Memory.write]
    split
    · simp [Memory.read, h]
    · split
      · rename_i heq
        subst heq
        simp [Memory.read, h]
      · simp [Memory.read, ih]

/-- The cells after a write are the new cell and cells that stood there before. -/
theorem Memory.mem_write (m : Memory) (a : Nat) (v : Byte) (c : Host.Cell) (h : c ∈ Memory.write m a v) :
    c = (a, v) ∨ c ∈ m := by
  induction m with
  | nil => simpa [Memory.write] using h
  | cons d m ih =>
    simp only [Memory.write] at h
    split at h
    · simpa using h
    · split at h
      · rcases List.mem_cons.1 h with h | h
        · exact .inl h
        · exact .inr (List.mem_cons_of_mem _ h)
      · rcases List.mem_cons.1 h with h | h
        · exact .inr (by simp [h])
        · exact (ih h).imp id (List.mem_cons_of_mem _)

/-- A write keeps the indices strictly rising. -/
theorem Memory.wf_write (h : Memory.wf m) (a : Nat) (v : Byte) : Memory.wf (Memory.write m a v) := by
  induction m with
  | nil => simp [Memory.write, Memory.wf]
  | cons d m ih =>
    obtain ⟨hd, hm⟩ := List.pairwise_cons.1 h
    simp only [Memory.write]
    split
    · rename_i hlt
      refine List.pairwise_cons.2 ⟨fun c hc => ?_, h⟩
      rcases List.mem_cons.1 hc with rfl | hc
      · exact hlt
      · exact Nat.lt_trans hlt (hd c hc)
    · split
      · rename_i heq
        subst heq
        exact List.pairwise_cons.2 ⟨hd, hm⟩
      · rename_i hlt hne
        refine List.pairwise_cons.2 ⟨fun c hc => ?_, ih hm⟩
        rcases Memory.mem_write m a v c hc with rfl | hc
        · show d.1 < a
          omega
        · exact hd c hc

/-! ### Every memory operation keeps the canonical form -/

theorem reset_buf_wf : Memory.wf State.reset.buf := List.Pairwise.nil

theorem State.drawBuffer_wf (s : State) : Memory.wf s.drawBuffer.buf := List.Pairwise.nil

theorem State.writeAtPosition_wf {s : State} (h : Memory.wf s.buf) (b : Byte) : Memory.wf (s.writeAtPosition b).buf :=
  Memory.wf_write h _ _

/-! ### Bytes of the buffer after each update -/

theorem State.bufAt_congr {s t : State} (hb : s.buf = t.buf) (hd : s.draws = t.draws) (i : Nat) : s.bufAt i = t.bufAt i := by
  simp [State.bufAt, hb, hd]

theorem State.bufPrefix_congr {s t : State} {n : Nat} (h : ∀ i < n, s.bufAt i = t.bufAt i) : s.bufPrefix n = t.bufPrefix n :=
  List.map_congr_left fun i hi => h i (List.mem_range.1 hi)

theorem State.bufPrefix_eq_iff {s t : State} {n : Nat} :
    s.bufPrefix n = t.bufPrefix n ↔ ∀ i < n, s.bufAt i = t.bufAt i := by
  simp [State.bufPrefix, List.map_inj_left]

@[simp] theorem State.length_bufPrefix (s : State) (n : Nat) : (s.bufPrefix n).length = n := by simp [State.bufPrefix]

@[simp] theorem State.bufPrefix_zero (s : State) : s.bufPrefix 0 = [] := rfl

theorem State.bufPrefix_succ (s : State) (n : Nat) : s.bufPrefix (n + 1) = s.bufPrefix n ++ [s.bufAt n] := by
  simp [State.bufPrefix, List.range_succ]

/-- The byte just stored reads back, and every other byte reads as before. -/
theorem State.bufAt_writeAtPosition (s : State) (b : Byte) (i : Nat) :
    (s.writeAtPosition b).bufAt i = if i = s.wp.toNat then b else s.bufAt i := by
  split
  · rename_i h
    simp [State.bufAt, h, Memory.read_write_same]
  · rename_i h
    simp [State.bufAt, Memory.read_write_other _ _ h]

@[simp] theorem State.bufAt_updateRunning (s : State) (i : Nat) : s.updateRunning.bufAt i = s.bufAt i :=
  State.bufAt_congr (by simp) (by simp) i

@[simp] theorem State.bufAt_overflowGuard (s : State) (i : Nat) : s.overflowGuard.bufAt i = s.bufAt i :=
  State.bufAt_congr (by simp) (by simp) i

@[simp] theorem State.bufAt_advance (s : State) (i : Nat) : s.advance.bufAt i = s.bufAt i := rfl
@[simp] theorem State.bufAt_resetPosition (s : State) (i : Nat) : s.resetPosition.bufAt i = s.bufAt i := rfl
@[simp] theorem State.bufAt_setEscape (s : State) (i : Nat) : s.setEscape.bufAt i = s.bufAt i := rfl
@[simp] theorem State.bufAt_clearEscape (s : State) (i : Nat) : s.clearEscape.bufAt i = s.bufAt i := rfl
@[simp] theorem State.bufAt_emit (s : State) (es : List Event) (i : Nat) : (s.emit es).bufAt i = s.bufAt i := rfl
@[simp] theorem State.bufAt_refuse (s : State) (r : RefusalReason) (i : Nat) : (s.refuse r).bufAt i = s.bufAt i := rfl

end Sys2Proof.Machine
end

