-- ==== Sys2Proof/Laws/Operands.lean ====
section
/-! SUPPORT. Laws of the value helpers: halves and their bytes, unescaping, stuffing, and the checksum as a fold. -/

namespace Sys2Proof.Machine

/-! ### Halves and their bytes -/

theorem join_toNat (a b : Byte) : (join a b).toNat = 256 * a.toNat + b.toNat := by
  have ha := a.isLt
  have hb := b.isLt
  have h : (join a b).toNat = (a.toNat <<< 8) ||| b.toNat := by
    simp only [join, BitVec.toNat_or, BitVec.toNat_shiftLeft, BitVec.toNat_setWidth, Nat.shiftLeft_eq]
    rw [Nat.mod_eq_of_lt (by omega : a.toNat < 2 ^ 16), Nat.mod_eq_of_lt (by omega : b.toNat < 2 ^ 16),
      Nat.mod_eq_of_lt (by omega)]
  rw [h, ← Nat.shiftLeft_add_eq_or_of_lt (by omega), Nat.shiftLeft_eq]
  omega

/-- A checksum is put together again from its two bytes, so the decoder's trailer is the encoder's (R144). -/
@[simp] theorem join_hi8_lo8 (v : Half) : join (hi8 v) (lo8 v) = v := by
  have hv := v.isLt
  apply BitVec.eq_of_toNat_eq
  rw [join_toNat]
  simp only [hi8, lo8, BitVec.extractLsb'_toNat, Nat.shiftRight_eq_div_pow]
  omega

/-- Two bytes are determined by the value they join to. -/
theorem join_inj {a b c d : Byte} : join a b = join c d ↔ a = c ∧ b = d := by
  have ha := a.isLt
  have hb := b.isLt
  have hc := c.isLt
  have hd := d.isLt
  constructor
  · intro h
    have h' := congrArg BitVec.toNat h
    rw [join_toNat, join_toNat] at h'
    exact ⟨BitVec.eq_of_toNat_eq (by omega), BitVec.eq_of_toNat_eq (by omega)⟩
  · rintro ⟨rfl, rfl⟩
    rfl

@[simp] theorem length_trailerBytes (v : Half) : (trailerBytes v).length = 2 := rfl

/-! ### Unescaping and stuffing -/

@[simp] theorem unescape_unescape (b : Byte) : unescape (unescape b) = b := by
  simp [unescape]

theorem stuff_reserved {x : Byte} (h : x = Config.boundary ∨ x = Config.escape) :
    stuff x = [Config.escape, unescape x] := by
  simp [stuff, h, unescape]

theorem stuff_plain {x : Byte} (h1 : x ≠ Config.boundary) (h2 : x ≠ Config.escape) : stuff x = [x] := by
  simp [stuff, h1, h2]

/-! ### The checksum as a fold -/

theorem crcCompute_eq_foldl (l : Bytes) : crcCompute l = l.foldl crcUpdate Config.crcInit := by
  simp [crcCompute, Config.crcXorOut]

@[simp] theorem crcCompute_nil : crcCompute [] = Config.crcInit := by simp [crcCompute_eq_foldl]

/-- Shifting is linear over GF(2). -/
theorem crcShift_xor (c d : Half) : crcShift (c ^^^ d) = crcShift c ^^^ crcShift d := by
  have hp : Config.crcPoly ^^^ Config.crcPoly = 0 := by decide
  unfold crcShift
  rw [BitVec.getLsbD_xor, BitVec.shiftLeft_xor_distrib]
  cases hc : c.getLsbD 15 <;> cases hd : d.getLsbD 15 <;> simp only [Bool.xor_false, Bool.xor_true, Bool.not_true,
    Bool.not_false, if_true, if_false, Bool.false_eq_true]
  · ac_rfl
  · ac_rfl
  · have h : ∀ x y p : Half, (x ^^^ p) ^^^ (y ^^^ p) = (x ^^^ y) ^^^ (p ^^^ p) := fun x y p => by ac_rfl
    rw [h, hp]
    simp

theorem crcShifts_xor (k : Nat) (c d : Half) : crcShifts k (c ^^^ d) = crcShifts k c ^^^ crcShifts k d := by
  induction k generalizing c d with
  | zero => rfl
  | succ k ih => rw [crcShifts, crcShifts, crcShifts, crcShift_xor, ih]

/-- A shift loses nothing: the polynomial's constant term tells whether bit 15 was set (R87). -/
theorem crcShift_eq_zero {c : Half} (h : crcShift c = 0) : c = 0 := by
  unfold crcShift at h
  split at h
  · have h0 := congrArg (fun v : Half => v.getLsbD 0) h
    simp [Config.crcPoly] at h0
  · rename_i h15
    apply BitVec.eq_of_getLsbD_eq
    intro i hi
    rcases Nat.lt_or_ge i 15 with hlt | hge
    · have hi' := congrArg (fun v : Half => v.getLsbD (i + 1)) h
      simpa [BitVec.getLsbD_shiftLeft, BitVec.getLsbD_eq_getElem, show i < 16 by omega, show i + 1 < 16 by omega] using hi'
    · have : i = 15 := by omega
      subst this
      simpa using h15

theorem crcShifts_eq_zero {k : Nat} {c : Half} (h : crcShifts k c = 0) : c = 0 := by
  induction k generalizing c with
  | zero => exact h
  | succ k ih => exact crcShift_eq_zero (ih h)

end Sys2Proof.Machine
end

