-- ==== Sys2Proof/Laws/Ops.lean ====
section
/-! SUPPORT. One lemma per shared operation that says once everything it can do. -/

namespace Sys2Proof.Machine

variable {s t : State} {b : Byte}

/-! ### Storing a byte -/

/-- A store that goes on is inside the buffer, and its next state is the four updates in the order of R112 and R113. -/
theorem storeByte_eq_next : storeByte b s = .next t ↔
    s.wp.toNat < s.cap.toNat ∧ t = (s.writeAtPosition b).updateRunning.advance.overflowGuard := by
  unfold storeByte
  split
  · simp_all [eq_comm]
  · simp_all

/-- A store that stops is outside the buffer. -/
theorem storeByte_eq_fault {f : Fault} : storeByte b s = .fault f ↔
    s.cap.toNat ≤ s.wp.toNat ∧ f = .outsideBuffer s.wp.toNat := by
  unfold storeByte
  split
  · simp_all
  · simp_all [eq_comm]

/-- Inside the buffer a store goes on and leaves exactly what `Stores` says; the escape flag and the draws stay. -/
theorem storeByte_stores (h : s.wp.toNat < s.cap.toNat) :
    ∃ t, storeByte b s = .next t ∧ Stores b s t ∧ t.esc = s.esc ∧ t.draws = s.draws
      ∧ t.buf = Memory.write s.buf s.wp.toNat b := by
  have hc := s.cap.isLt
  have hw : (s.wp + 1).toNat = s.wp.toNat + 1 := by
    rw [BitVec.toNat_add]
    simp
    omega
  have hcap : s.wp + 1 = s.cap ↔ s.wp.toNat + 1 = s.cap.toNat := by rw [BitVec.toNat_eq, hw]
  refine ⟨_, storeByte_eq_next.2 ⟨h, rfl⟩, ⟨?_, ?_, ?_, ?_, ?_, ?_, ?_, ?_, ?_⟩, ?_, ?_, ?_⟩
  · simp [State.bufAt_writeAtPosition]
  · intro i hi
    simp [State.bufAt_writeAtPosition, hi]
  · rw [State.overflowGuard_wp]
    simp only [State.advance_wp, State.updateRunning_wp, State.writeAtPosition_wp, State.advance_cap,
      State.updateRunning_cap, State.writeAtPosition_cap, hcap]
    split
    · simp
    · exact hw
  · rw [State.overflowGuard_rcrc]
    simp only [State.advance_wp, State.updateRunning_wp, State.writeAtPosition_wp, State.advance_cap,
      State.updateRunning_cap, State.writeAtPosition_cap, State.advance_rcrc, hcap]
    split
    · rfl
    · rw [State.updateRunning_rcrc]
      by_cases h2 : 2 ≤ s.wp.toNat
      · have h2' : 2 ≤ (s.writeAtPosition b).wp.toNat := h2
        rw [if_pos h2, if_pos h2', State.bufAt_writeAtPosition, State.writeAtPosition_wp, if_neg (by omega)]
        rfl
      · have h2' : ¬ 2 ≤ (s.writeAtPosition b).wp.toNat := h2
        rw [if_neg h2, if_neg h2']
        rfl
  all_goals simp

/-! ### A boundary octet -/

/-- A validation that goes on resets the position; it emits the frame held exactly when two bytes or more are held,
inside the buffer, and the trailer matches. -/
theorem validateAndReset_eq_next : validateAndReset s = .next t ↔
    (2 ≤ s.wp.toNat ∧ s.wp.toNat ≤ s.cap.toNat ∧ s.trailerMatches = true ∧ t = (s.emit [.frame s.frameHeld]).resetPosition)
    ∨ ((s.wp.toNat < 2 ∨ (s.wp.toNat ≤ s.cap.toNat ∧ s.trailerMatches = false)) ∧ t = s.resetPosition) := by
  unfold validateAndReset Config.trailerLength
  split
  · rename_i h
    simp only [Host.Outcome.next.injEq, h, true_or, true_and, show ¬ 2 ≤ s.wp.toNat by omega, false_and, false_or]
    exact eq_comm
  · split
    · rename_i h1 h2
      simp only [reduceCtorEq, false_iff]
      omega
    · rename_i h1 h2
      have h2' : s.wp.toNat ≤ s.cap.toNat := by omega
      have h1' : 2 ≤ s.wp.toNat := by omega
      cases hm : s.trailerMatches
      · simp only [Bool.false_eq_true, if_false, Host.Outcome.next.injEq, h1', h2', true_and, false_and, false_or, h1, and_true,
          or_true]
        exact eq_comm
      · simp only [if_true, Host.Outcome.next.injEq, h1', h2', true_and, h1, and_false, or_false, reduceCtorEq, false_and]
        exact eq_comm

/-- A validation that stops holds more bytes than the buffer has. -/
theorem validateAndReset_eq_fault {f : Fault} : validateAndReset s = .fault f ↔
    2 ≤ s.wp.toNat ∧ s.cap.toNat < s.wp.toNat ∧ f = .outsideBuffer (s.wp.toNat - 1) := by
  unfold validateAndReset Config.trailerLength
  split
  · simp_all
  · split
    · rename_i h1 h2
      simp only [Host.Outcome.fault.injEq, h2, true_and, show 2 ≤ s.wp.toNat by omega]
      exact eq_comm
    · rename_i h1 h2
      split <;> simp [h2]

/-! ### The guard of the decoder's operations -/

theorem onDecoder_constructed {path : State → Outcome} (h : s.initialised = true) : onDecoder path s = path s := by
  simp [onDecoder, h]

theorem onDecoder_unconstructed {path : State → Outcome} (h : s.initialised = false) :
    onDecoder path s = .next (s.refuse .uninitialised) := by
  simp [onDecoder, h]

/-! ### The state helpers, as record updates -/

theorem State.resetPosition_eq (s : State) : s.resetPosition = { s with wp := 0, rcrc := 0xFFFF#16 } := rfl

theorem State.refuse_eq (s : State) (r : RefusalReason) : s.refuse r = { s with refusals := s.refusals ++ [r] } := rfl

theorem State.emit_eq (s : State) (es : List Event) : s.emit es = { s with outputs := s.outputs ++ es } := rfl

end Sys2Proof.Machine
end

