-- ==== Sys2Proof/Laws/PerInstr.lean ====
section
/-! SUPPORT. Per instruction: the encoder's word is on the row of the opcode table that the instruction stands for, and
an input class is on no row of a higher priority. -/

namespace Sys2Proof.Laws.CarriesItsRow

/-- A well-formed instruction's encoding carries the fixed bits of its own row of spec/opcode_table.json. -/
def Statement (i : Instr) : Prop := WellFormed i → i.carriesItsRow = true

/-- A mask of the high part keeps the high part and clears the rest. -/
theorem and_high_mask {m n : Nat} (a : BitVec m) (b : BitVec n) : (a ++ b) &&& (BitVec.allOnes m ++ 0#n) = a ++ 0#n := by
  ext i hi
  simp only [BitVec.getElem_and, BitVec.getElem_append]
  split <;> simp

theorem decInit (cap : Half) : Statement (.decInit cap) := fun _ => by
  exact decide_eq_true (and_high_mask (0x1#4 ++ 0x000#12) cap)

theorem decFeed (b : Byte) : Statement (.decFeed b) := fun _ => by
  exact decide_eq_true (and_high_mask (0x2#4 ++ 0x00000#20) b)

theorem crcUpdate (run : Half) (b : Byte) : Statement (.crcUpdate run b) := fun _ => by
  have h : format24 0x3 run b = (0x3#4 ++ 0x0#4) ++ (run ++ b) := by
    show (0x3#4 ++ 0x0#4 ++ run ++ b : BitVec (4 + 4 + 16 + 8)) = (0x3#4 ++ 0x0#4) ++ (run ++ b)
    rw [BitVec.append_assoc]
    rfl
  exact decide_eq_true ((congrArg (· &&& rowCrcUpdate.mask) h).trans (and_high_mask (0x3#4 ++ 0x0#4) (run ++ b)))

theorem crcCompute (n : Half) (p : Bytes) : Statement (.crcCompute n p) := fun _ => by
  exact decide_eq_true (and_high_mask (0x4#4 ++ 0x000#12) n)

theorem encEncode (n : Half) (p : Bytes) : Statement (.encEncode n p) := fun _ => by
  exact decide_eq_true (and_high_mask (0x5#4 ++ 0x000#12) n)

theorem boundaryAfterEscape : Statement .boundaryAfterEscape := fun _ => by decide

theorem boundary : Statement .boundary := fun _ => by decide

theorem escapedData (b : Byte) : Statement (.escapedData b) := by
  unfold Statement; revert b; decide +kernel

theorem escape : Statement .escape := fun _ => by decide

theorem data (b : Byte) : Statement (.data b) := by
  unfold Statement; revert b; decide +kernel

end Sys2Proof.Laws.CarriesItsRow
end

