-- ==== Sys2Proof/Laws/Step.lean ====
section
/-! SUPPORT. Once, everything an instruction and a step can do: the invariants are derived from this inversion. -/

namespace Sys2Proof.Machine

/-- The next states the operations of the block have. -/
inductive Effect (s : State) : State → Prop where
  | refused (r : RefusalReason) : Effect s (s.refuse r)
  | constructed (cap : Half) (h : cap ≠ 0) :
      Effect s { s.drawBuffer.resetPosition.clearEscape with cap := cap, initialised := true }
  | result (v : Half) : Effect s (s.emit [.result v])
  | sent (p : Bytes) : Effect s (s.emit ((wireFrame p).map .sinkByte))
  | absorbed (hi : s.initialised = true) : Effect s s.clearEscape.resetPosition
  | delivered (hi : s.initialised = true) (h2 : 2 ≤ s.wp.toNat) (hc : s.wp.toNat ≤ s.cap.toNat)
      (hm : s.trailerMatches = true) : Effect s (s.emit [.frame s.frameHeld]).resetPosition
  | discarded (hi : s.initialised = true) : Effect s s.resetPosition
  | stored (b : Byte) (t : State) (hi : s.initialised = true) (h : storeByte b s = .next t) : Effect s t
  | storedUnescaped (b : Byte) (t : State) (hi : s.initialised = true) (h : storeByte b s.clearEscape = .next t) : Effect s t
  | escaped (hi : s.initialised = true) : Effect s s.setEscape

variable {s t : State} {b : Byte}

theorem onDecoder_effect {path : State → Outcome} (hp : s.initialised = true → path s = .next t → Effect s t)
    (h : onDecoder path s = .next t) : Effect s t := by
  cases hi : s.initialised
  · rw [onDecoder_unconstructed hi] at h
    cases h
    exact .refused _
  · rw [onDecoder_constructed hi] at h
    exact hp hi h

theorem absorbEscape_effect (hi : s.initialised = true) (h : absorbEscape s = .next t) : Effect s t := by
  cases h
  exact .absorbed hi

theorem validateAndReset_effect (hi : s.initialised = true) (h : validateAndReset s = .next t) : Effect s t := by
  rcases validateAndReset_eq_next.1 h with ⟨h2, hc, hm, rfl⟩ | ⟨-, rfl⟩
  · exact .delivered hi h2 hc hm
  · exact .discarded hi

theorem storeUnescaped_effect (hi : s.initialised = true) (h : storeUnescaped b s = .next t) : Effect s t :=
  .storedUnescaped _ t hi h

theorem noteEscape_effect (hi : s.initialised = true) (h : noteEscape s = .next t) : Effect s t := by
  cases h
  exact .escaped hi

/-- Everything an instruction that goes on can do. -/
theorem exec_effect {i : Instr} (h : exec i s = .next t) : Effect s t := by
  cases i with
  | decInit cap =>
    simp only [exec, execDecInit] at h
    split at h
    · cases h
      exact .refused _
    · rename_i hc
      cases h
      exact .constructed cap hc
  | decFeed b =>
    simp only [exec, execDecFeed] at h
    refine onDecoder_effect (fun hi h => ?_) h
    split at h
    · split at h
      · exact absorbEscape_effect hi h
      · exact validateAndReset_effect hi h
    · split at h
      · exact storeUnescaped_effect hi h
      · split at h
        · exact noteEscape_effect hi h
        · exact .stored b t hi h
  | crcUpdate run b =>
    cases h
    exact .result _
  | crcCompute n p =>
    simp only [exec, execCrcCompute] at h
    split at h <;> cases h
    · exact .result _
    · exact .refused _
  | encEncode n p =>
    simp only [exec, execEncEncode] at h
    split at h <;> cases h
    · exact .sent _
    · exact .refused _
  | boundaryAfterEscape => exact onDecoder_effect absorbEscape_effect h
  | boundary => exact onDecoder_effect validateAndReset_effect h
  | escapedData b => exact onDecoder_effect storeUnescaped_effect h
  | escape => exact onDecoder_effect noteEscape_effect h
  | data b => exact onDecoder_effect (fun hi h => .stored b t hi h) h

/-- Everything a step that goes on can do: nothing when nothing is pending, otherwise one effect at the state without the
operation performed. -/
theorem step_effect (h : step s = .next t) :
    (s.pending = [] ∧ t = s) ∨ (∃ iss rest, s.pending = iss :: rest ∧ Effect { s with pending := rest } t) := by
  unfold step at h
  split at h
  · rename_i hp
    cases h
    exact .inl ⟨hp, rfl⟩
  · rename_i iss rest hp
    refine .inr ⟨iss, rest, hp, ?_⟩
    split at h
    · cases h
      exact .refused _
    · exact exec_effect h

/-- An invariant that looks at no pending operation and that every effect keeps is kept by every step. -/
theorem step_keeps {P : State → Prop} (hpending : ∀ s rest, P s → P { s with pending := rest })
    (heffect : ∀ s t, P s → Effect s t → P t) (hs : P s) (h : step s = .next t) : P t := by
  rcases step_effect h with ⟨-, rfl⟩ | ⟨iss, rest, -, he⟩
  · exact hs
  · exact heffect _ _ (hpending _ _ hs) he

/-! ### Sequences of feeds -/

/-- Feeding two lists is feeding the first and then, where that goes on, the second. -/
theorem feedAll_append (a b : Bytes) (s : State) : feedAll (a ++ b) s =
    match feedAll a s with
    | .next t => feedAll b t
    | .fault f => .fault f
    | .refused r => .refused r := by
  induction a generalizing s with
  | nil => rfl
  | cons x a ih =>
    simp only [List.cons_append, feedAll]
    cases exec (.decFeed x) s <;> simp [ih]

/-! ### Where an instruction stops -/

/-- No instruction is refused, and the only fault is an access of a constructed decoder outside its buffer. -/
theorem exec_stops_only_outside (i : Instr) (s : State) :
    (∃ t, exec i s = .next t) ∨
      (∃ k, exec i s = .fault (.outsideBuffer k) ∧ s.initialised = true ∧ s.cap.toNat ≤ k ∧ k ≤ s.wp.toNat) := by
  have hstore : ∀ b, (∃ t, storeByte b s = .next t) ∨
      (∃ k, storeByte b s = .fault (.outsideBuffer k) ∧ s.cap.toNat ≤ k ∧ k ≤ s.wp.toNat) := fun b => by
    unfold storeByte
    split
    · exact .inl ⟨_, rfl⟩
    · exact .inr ⟨_, rfl, by omega, Nat.le_refl _⟩
  have hunescaped : ∀ b, (∃ t, storeUnescaped b s = .next t) ∨
      (∃ k, storeUnescaped b s = .fault (.outsideBuffer k) ∧ s.cap.toNat ≤ k ∧ k ≤ s.wp.toNat) := fun b => by
    unfold storeUnescaped storeByte
    split
    · exact .inl ⟨_, rfl⟩
    · rename_i h
      simp only [State.clearEscape_wp, State.clearEscape_cap] at h
      exact .inr ⟨_, rfl, by simpa using h, by simp⟩
  have hvalidate : (∃ t, validateAndReset s = .next t) ∨
      (∃ k, validateAndReset s = .fault (.outsideBuffer k) ∧ s.cap.toNat ≤ k ∧ k ≤ s.wp.toNat) := by
    unfold validateAndReset
    split
    · exact .inl ⟨_, rfl⟩
    · split
      · exact .inr ⟨_, rfl, by omega, by omega⟩
      · split <;> exact .inl ⟨_, rfl⟩
  have hguard : ∀ path : State → Outcome, ((∃ t, path s = .next t) ∨
      (∃ k, path s = .fault (.outsideBuffer k) ∧ s.cap.toNat ≤ k ∧ k ≤ s.wp.toNat)) →
      (∃ t, onDecoder path s = .next t) ∨
      (∃ k, onDecoder path s = .fault (.outsideBuffer k) ∧ s.initialised = true ∧ s.cap.toNat ≤ k ∧ k ≤ s.wp.toNat) :=
    fun path hp => by
    unfold onDecoder
    split
    · rename_i hi
      exact hp.imp id fun ⟨k, hk, h⟩ => ⟨k, hk, hi, h⟩
    · exact .inl ⟨_, rfl⟩
  cases i with
  | decInit cap =>
    simp only [exec, execDecInit]
    split <;> exact .inl ⟨_, rfl⟩
  | decFeed b =>
    simp only [exec, execDecFeed]
    refine hguard _ ?_
    split
    · split
      · exact .inl ⟨_, rfl⟩
      · exact hvalidate
    · split
      · exact hunescaped b
      · split
        · exact .inl ⟨_, rfl⟩
        · exact hstore b
  | crcUpdate run b => exact .inl ⟨_, rfl⟩
  | crcCompute n p =>
    simp only [exec, execCrcCompute]
    split <;> exact .inl ⟨_, rfl⟩
  | encEncode n p =>
    simp only [exec, execEncEncode]
    split <;> exact .inl ⟨_, rfl⟩
  | boundaryAfterEscape => exact hguard _ (.inl ⟨_, rfl⟩)
  | boundary => exact hguard _ hvalidate
  | escapedData b => exact hguard _ (hunescaped b)
  | escape => exact hguard _ (.inl ⟨_, rfl⟩)
  | data b => exact hguard _ (hstore b)

end Sys2Proof.Machine
end

