-- ==== Sys2Proof/Tests/Slice0.lean ====
section
/-! SUPPORT. Tests. Expected values are those of spec/95_test_vectors.md (named V-..., S..., P...), of the formats of
30_encoding.md R65 written out bit by bit, or of the rows of the opcode table. Then one witness per statement that has
hypotheses. -/

namespace Sys2Proof.Tests

open Sys2Proof.Machine

/-! ## Helpers -/

/-- The next state of an outcome, if it is one. -/
def nextOf : Outcome → Option State
  | .next s => some s
  | .fault _ => none
  | .refused _ => none

/-- A constructed decoder of capacity `c` that holds some bytes, with the running checksum R115 gives. -/
def holding (c : Half) (bs : Bytes) (e : Bool) : State :=
  { State.reset with
    cap := c, buf := (List.range bs.length).zip bs, wp := BitVec.ofNat 16 bs.length, esc := e,
    rcrc := crcCompute (bs.take (bs.length - 2)), initialised := true }

/-- What the decoder vectors show of a state: `wp / esc / rcrc` and `buf[0..wp)`. -/
def shown (s : State) : Half × Bool × Half × Bytes := (s.wp, s.esc, s.rcrc, s.bufPrefix s.wp.toNat)

/-- What a vector shows of the outcome of an instruction. -/
def shownAfter (i : Instr) (s : State) : Option (Half × Bool × Half × Bytes) := (nextOf (exec i s)).map shown

/-- The frames after an instruction. -/
def framesAfter (i : Instr) (s : State) : Option (List Frame) := (nextOf (exec i s)).map State.frames

/-- The reasons recorded after an instruction. -/
def refusalsAfter (i : Instr) (s : State) : Option (List RefusalReason) := (nextOf (exec i s)).map State.refusals

/-- The instruction read from an encoding, if it decodes. -/
def decoded (e : Encoded) : Option Instr :=
  match decode e with
  | .ok i => some i
  | .error _ => none

/-- The reason an encoding is refused, if it is. -/
def refusedAs (e : Encoded) : Option RefusalReason :=
  match decode e with
  | .ok _ => none
  | .error r => some r

/-! ## Well-formedness: each check refuses an ill-formed term -/

theorem test_wf_decInit_zero : (Instr.decInit 0).wellFormed = false := by decide
theorem test_wf_crcCompute_length : (Instr.crcCompute 2 [0x41]).wellFormed = false := by decide
theorem test_wf_encEncode_length : (Instr.encEncode 0 [0x41]).wellFormed = false := by decide
theorem test_wf_escapedData_boundary : (Instr.escapedData 0x7E).wellFormed = false := by decide
theorem test_wf_data_boundary : (Instr.data 0x7E).wellFormed = false := by decide
theorem test_wf_data_escape : (Instr.data 0x7D).wellFormed = false := by decide
theorem test_wf_good : (Instr.crcCompute 2 [0x41, 0x42]).wellFormed = true ∧ (Instr.escapedData 0x7D).wellFormed = true := by decide

/-! ## Decoding: words written out from the formats of R65 and from the table's rows -/

theorem test_decode_decInit :
    decoded (.command 0b0001_000000000000_0000000000001000#32 []) = some (.decInit 8) := by decide
theorem test_decode_decFeed :
    decoded (.command 0b0010_00000000000000000000_01111110#32 []) = some (.decFeed 0x7E) := by decide
theorem test_decode_crcUpdate :
    decoded (.command 0b0011_0000_0001001000110100_01010110#32 []) = some (.crcUpdate 0x1234 0x56) := by decide
theorem test_decode_crcCompute :
    decoded (.command 0b0100_000000000000_0000000000000010#32 [0x41, 0x42]) = some (.crcCompute 2 [0x41, 0x42]) := by decide
theorem test_decode_encEncode :
    decoded (.command 0b0101_000000000000_0000000000000001#32 [0x7E]) = some (.encEncode 1 [0x7E]) := by decide
theorem test_decode_boundaryAfterEscape : decoded (.decoderInput 0b1_01111110#9) = some .boundaryAfterEscape := by decide
theorem test_decode_boundary : decoded (.decoderInput 0b0_01111110#9) = some .boundary := by decide
theorem test_decode_escapedData : decoded (.decoderInput 0b1_01111101#9) = some (.escapedData 0x7D) := by decide
theorem test_decode_escape : decoded (.decoderInput 0b0_01111101#9) = some .escape := by decide
theorem test_decode_data : decoded (.decoderInput 0b0_01011110#9) = some (.data 0x5E) := by decide

/-- V-CMD-2, 4, 6, 8, 10, 13, 14, 15. -/
theorem test_decode_refusals :
    [refusedAs (.command 0x10000000 []), refusedAs (.command 0x10010008 []), refusedAs (.command 0x2000017E []),
      refusedAs (.command 0x31FFFF41 []), refusedAs (.command 0x40000003 [0x41, 0x42]), refusedAs (.command 0x00000000 []),
      refusedAs (.command 0x60000000 []), refusedAs (.command 0xF0000000 [])]
    = [some .badCapacity, some .reservedBits, some .reservedBits, some .reservedBits, some .lengthMismatch,
      some .reservedOpcode, some .reservedOpcode, some .reservedOpcode] := by decide

/-- The words of R71. -/
theorem test_encode_words :
    [encode (.decInit 8), encode (.decFeed 0x7E), encode (.crcUpdate 0xFFFF 0x41), encode (.crcCompute 0 [])]
    = [.command 0x10000008 [], .command 0x2000007E [], .command 0x30FFFF41 [], .command 0x40000000 []] := by decide

/-- No word is on two command rows of the opcode table. -/
theorem test_command_rows_disjoint :
    commandRows.Pairwise fun r q => (r.pattern ^^^ q.pattern) &&& r.mask &&& q.mask ≠ 0 := by decide

theorem test_table_words :
    [decodeTableWord 32 0x10000008, decodeTableWord 32 0x40000002, decodeTableWord 16 0x17E, decodeTableWord 16 0x041,
      decodeTableWord 16 0x200]
    = [some (.decInit 8), some (.crcCompute 2 [0, 0]), some .boundaryAfterEscape, some (.data 0x41), none] := by
  decide +kernel

/-! ## CRC unit -/

/-- V-CRC-10: a running value that is not from the initial one. -/
theorem test_crcUpdate_result : (nextOf (exec (.crcUpdate 0x1234 0x56) .reset)).map State.results = some [0x3C40] := by
  decide +kernel
/-- V-CRC-7: the polynomial itself. -/
theorem test_crcUpdate_polynomial : crcUpdate 0x0000 0x01 = 0x1021 := by decide +kernel
/-- V-CRC-2: the check value. -/
theorem test_crcCompute_result :
    (nextOf (exec (.crcCompute 9 [0x31, 0x32, 0x33, 0x34, 0x35, 0x36, 0x37, 0x38, 0x39]) .reset)).map State.results
      = some [0x29B1] := by decide +kernel
/-- V-CRC-1 and V-CRC-18. -/
theorem test_crcCompute_short : crcCompute [] = 0xFFFF ∧ crcCompute [0x2F] = 0x347D := by decide +kernel

/-! ## Frame encoder -/

/-- V-ENC-3: payload byte and trailer high byte stuffed. -/
theorem test_encEncode_stuffed : (nextOf (exec (.encEncode 1 [0x7E]) .reset)).map State.sink
    = some [0x7E, 0x7D, 0x5E, 0x7D, 0x5E, 0xA9, 0x7E] := by decide +kernel
/-- V-ENC-4: trailer low byte stuffed. -/
theorem test_encEncode_low : (nextOf (exec (.encEncode 1 [0x2F]) .reset)).map State.sink
    = some [0x7E, 0x2F, 0x34, 0x7D, 0x5D, 0x7E] := by decide +kernel

/-! ## Frame decoder -/

/-- R100: a partial frame with a pending escape is dropped, without a frame event. -/
theorem test_decInit_fresh : shownAfter (.decInit 8) (holding 4 [0x41, 0x42] true) = some (0, false, 0xFFFF, [])
    ∧ (nextOf (exec (.decInit 8) (holding 4 [0x41, 0x42] true))).map State.cap = some 8 := by decide
theorem test_decInit_zero : refusalsAfter (.decInit 0) .reset = some [.badCapacity] := by decide
/-- V-DEC-2, the closing boundary. -/
theorem test_decFeed_frame : framesAfter (.decFeed 0x7E) (holding 8 [0x41, 0x42, 0x4B, 0x74] false)
    = some [⟨[0x41, 0x42, 0x4B, 0x74], 4, 2⟩] := by decide +kernel
/-- V-DEC-18. -/
theorem test_decFeed_uninitialised : refusalsAfter (.decFeed 0x7E) .reset = some [.uninitialised] := by decide
/-- V-DEC-9: the content would match, but the escape is absorbed. -/
theorem test_boundaryAfterEscape : shownAfter .boundaryAfterEscape (holding 8 [0x41, 0x42, 0x4B, 0x74] true)
      = some (0, false, 0xFFFF, [])
    ∧ framesAfter .boundaryAfterEscape (holding 8 [0x41, 0x42, 0x4B, 0x74] true) = some [] := by decide +kernel
/-- V-DEC-4: the empty payload. -/
theorem test_boundary_empty_payload : framesAfter .boundary (holding 8 [0xFF, 0xFF] false) = some [⟨[0xFF, 0xFF], 2, 0⟩] := by
  decide +kernel
/-- V-DEC-6: the trailer is 0x4B75, not 0x4B74. -/
theorem test_boundary_mismatch : framesAfter .boundary (holding 8 [0x41, 0x42, 0x4B, 0x75] false) = some [] := by
  decide +kernel
/-- V-DEC-7: the second escape octet is data under the escape. -/
theorem test_escapedData_escape : shownAfter (.escapedData 0x7D) (holding 8 [] true) = some (1, false, 0xFFFF, [0x5D]) := by
  decide +kernel
/-- V-DEC-8. -/
theorem test_escapedData_plain : shownAfter (.escapedData 0x41) (holding 8 [] true) = some (1, false, 0xFFFF, [0x61]) := by
  decide +kernel
/-- V-DEC-9, the escape octet. -/
theorem test_escape : shownAfter .escape (holding 8 [0x41, 0x42, 0x4B, 0x74] false)
    = some (4, true, 0x4B74, [0x41, 0x42, 0x4B, 0x74]) := by decide +kernel
/-- V-DEC-2, the third byte: the running checksum lags by two. -/
theorem test_data_running : shownAfter (.data 0x4B) (holding 8 [0x41, 0x42] false)
    = some (3, false, 0xB915, [0x41, 0x42, 0x4B]) := by decide +kernel
/-- V-DEC-10: overflow; the byte is stored all the same. -/
theorem test_data_overflow : shownAfter (.data 0x04) (holding 4 [0x01, 0x02, 0x03] false) = some (0, false, 0xFFFF, [])
    ∧ (nextOf (exec (.data 0x04) (holding 4 [0x01, 0x02, 0x03] false))).map (fun s => s.bufAt 3) = some 0x04 := by
  decide +kernel
/-- A position the buffer does not have, in no reachable state (log 7). -/
theorem test_data_outside : (match exec (.data 0x04) { holding 4 [] false with wp := 4 } with
    | .fault f => some f
    | _ => none) = some (.outsideBuffer 4) := by decide

/-! ## Host interface and assembler -/

/-- A step of a word issued from a callback, and of one that overlaps. -/
theorem test_step_contexts :
    (nextOf (step { State.reset with pending := [⟨0x10000008, [], .insideCallback⟩] })).map State.refusals = some [.reentrant]
    ∧ (nextOf (step { State.reset with pending := [⟨0x10000008, [], .overlapping⟩] })).map State.refusals
      = some [.concurrent] := by decide
/-- P5: three refusals in one run; no block state is written. -/
theorem test_run_refusals : ((assemble ["dec.feed 0x41", ".word 0x00000000", "dec.init 0  ; refused"]).bind fun is =>
      nextOf (Host.Core.run Sys2Proof.core 3 { State.reset with pending := is }))
    = some { State.reset with refusals := [.uninitialised, .reservedOpcode, .badCapacity] } := by decide +kernel
/-- The words of P1 and P4, and the operand of P2. -/
theorem test_assemble_words : (assemble ["dec.init 8 ; comment", "", "crc.update 0xC782, 0x32",
      "enc.encode [0x7E, 0x7D, 0x11]", "dec.feeds 0x7E, 65"]).map (List.map fun i => (i.word, i.operand))
    = some [(0x10000008, []), (0x30C78232, []), (0x50000003, [0x7E, 0x7D, 0x11]), (0x2000007E, []), (0x20000041, [])] := by
  decide +kernel
/-- A value too wide for its field is no line of the syntax. -/
theorem test_assemble_too_wide : assembleLine "dec.feed 256" = none := by decide +kernel
/-- The class of a table word is what the very next step runs. -/
theorem test_fetch_class : (nextOf (step ((holding 8 [] false).withFetchWord 16 0x141))).map shown
    = some (1, false, 0xFFFF, [0x61]) := by decide +kernel

/-! ## Witnesses: a state and operands that meet all hypotheses of a statement -/

/-- A decoder that holds the frame of "AB" (S1) in a buffer of 8. -/
def heldFrame : State := holding 8 [0x41, 0x42, 0x4B, 0x74] false

theorem heldFrame_inv : StateInv heldFrame :=
  ⟨by decide, by decide, by decide, by decide, by decide +kernel, fun _ h => nomatch h⟩

theorem heldFrame_ready : Ready heldFrame := ⟨by decide, by decide⟩

/-- A state with one operation pending. -/
def withPending (s : State) (w : Word) (p : Bytes) (c : IssueContext) : State := { s with pending := [⟨w, p, c⟩] }

theorem witness_DecodeOfEncodeIsTheInstruction : WellFormed (.decInit 0xFFFF) ∧ WellFormed (.escapedData 0x7D)
    ∧ WellFormed (.encEncode 1 [0x7E]) := by decide

theorem witness_EncodeOfDecodeIsTheWords : decode (.command 0x1000FFFF#32 [0x41]) = .ok (.decInit 0xFFFF)
    ∧ decode (.command 0x40000001#32 [0x41]) = .ok (.crcCompute 1 [0x41]) := ⟨rfl, rfl⟩

/-- One word for each line of the decode function, at the ends of its ranges. -/
theorem witness_CommandWordDecodesByFormat :
    (0x10000000#32).toNat / 2 ^ 28 = 1 ∧ (0x10000000#32).toNat / 2 ^ 16 % 2 ^ 12 = 0 ∧ (0x10000000#32).toNat % 2 ^ 16 = 0
    ∧ (0x10000001#32).toNat / 2 ^ 28 = 1 ∧ (0x10000001#32).toNat / 2 ^ 16 % 2 ^ 12 = 0 ∧ (0x10000001#32).toNat % 2 ^ 16 ≠ 0
    ∧ (0x200000FF#32).toNat / 2 ^ 28 = 2 ∧ (0x200000FF#32).toNat / 2 ^ 8 % 2 ^ 20 = 0
    ∧ (0x30FFFFFF#32).toNat / 2 ^ 28 = 3 ∧ (0x30FFFFFF#32).toNat / 2 ^ 24 % 2 ^ 4 = 0
    ∧ (0x40000001#32).toNat / 2 ^ 28 = 4 ∧ (0x40000001#32).toNat / 2 ^ 16 % 2 ^ 12 = 0
    ∧ ([] : Bytes).length ≠ (0x40000001#32).toNat % 2 ^ 16 ∧ ([0x41] : Bytes).length = (0x40000001#32).toNat % 2 ^ 16
    ∧ (0x50000000#32).toNat / 2 ^ 28 = 5 ∧ (0x50000000#32).toNat / 2 ^ 16 % 2 ^ 12 = 0
    ∧ ([0x41] : Bytes).length ≠ (0x50000000#32).toNat % 2 ^ 16 ∧ ([] : Bytes).length = (0x50000000#32).toNat % 2 ^ 16
    ∧ (0x18000000#32).toNat / 2 ^ 28 = 1 ∧ (0x18000000#32).toNat / 2 ^ 16 % 2 ^ 12 ≠ 0
    ∧ (0x40010000#32).toNat / 2 ^ 28 = 4 ∧ (0x40010000#32).toNat / 2 ^ 16 % 2 ^ 12 ≠ 0
    ∧ (0x58000000#32).toNat / 2 ^ 28 = 5 ∧ (0x58000000#32).toNat / 2 ^ 16 % 2 ^ 12 ≠ 0
    ∧ (0x20000100#32).toNat / 2 ^ 28 = 2 ∧ (0x20000100#32).toNat / 2 ^ 8 % 2 ^ 20 ≠ 0
    ∧ (0x31000000#32).toNat / 2 ^ 28 = 3 ∧ (0x31000000#32).toNat / 2 ^ 24 % 2 ^ 4 ≠ 0
    ∧ (0x0FFFFFFF#32).toNat / 2 ^ 28 = 0 ∧ 6 ≤ (0x60000000#32).toNat / 2 ^ 28 := by decide

theorem witness_AssembledLinesDecode : ([0x41] : Bytes).length < 2 ^ 16 := by decide
/-- The words of R71 and R72, as their rows write them. -/
theorem test_asm_word_and_sync : AsmLine.issues (.word 0xF0000000) = [⟨0xF0000000, [], .serial⟩]
    ∧ AsmLine.issues .decSync = [⟨0x2000007E, [], .serial⟩, ⟨0x2000007E, [], .serial⟩] := by decide

theorem witness_StepRunsTheDecodedInstruction :
    (withPending .reset 0x10000008 [] .serial).pending = ⟨0x10000008, [], .serial⟩ :: []
    ∧ decodeCommand 0x10000008 [] = .ok (.decInit 8) := ⟨rfl, rfl⟩

theorem witness_StepRunsTheInputClass :
    (withPending heldFrame 0x2000007E [] .serial).pending = ⟨0x2000007E, [], .serial⟩ :: []
    ∧ decodeCommand 0x2000007E [] = .ok (.decFeed 0x7E)
    ∧ decode (.decoderInput (BitVec.ofBool (withPending heldFrame 0x2000007E [] .serial).esc ++ 0x7E#8)) = .ok .boundary :=
  ⟨rfl, rfl, rfl⟩

theorem witness_StepRunsTheTableWord : decodeTableWord 32 0x10000008 = some (.decInit 8)
    ∧ (Instr.decInit 8).isCommand = true ∧ decodeTableWord 16 0x17E = some .boundaryAfterEscape
    ∧ Instr.boundaryAfterEscape.isCommand = false := by decide

theorem witness_StepWithNothingPendingWaits : State.reset.pending = [] := rfl

/-- V-CMD-2 and V-CMD-10 among them, and an empty operand for `N = 1`. -/
theorem witness_ReservedWordsAreRefused :
    (withPending .reset 0xF0000000 [] .serial).pending = ⟨0xF0000000, [], .serial⟩ :: []
    ∧ (withPending .reset 0x10000000 [] .serial).pending = ⟨0x10000000, [], .serial⟩ :: []
    ∧ (withPending .reset 0x40000003 [0x41, 0x42] .serial).pending = ⟨0x40000003, [0x41, 0x42], .serial⟩ :: []
    ∧ decodeCommand 0x10000000 [] = .error .badCapacity
    ∧ decodeCommand 0x40000003 [0x41, 0x42] = .error .lengthMismatch
    ∧ (0x10000000#32).toNat / 2 ^ 28 = 1 ∧ (0x10000000#32).toNat / 2 ^ 16 % 2 ^ 12 = 0 ∧ (0x10000000#32).toNat % 2 ^ 16 = 0
    ∧ (0x40000003#32).toNat / 2 ^ 28 = 4 ∧ (0x40000003#32).toNat / 2 ^ 16 % 2 ^ 12 = 0
    ∧ ([0x41, 0x42] : Bytes).length ≠ (0x40000003#32).toNat % 2 ^ 16
    ∧ (0x50000001#32).toNat / 2 ^ 28 = 5 ∧ (0x50000001#32).toNat / 2 ^ 16 % 2 ^ 12 = 0
    ∧ ([] : Bytes).length ≠ (0x50000001#32).toNat % 2 ^ 16
    ∧ 6 ≤ (0xF0000000#32).toNat / 2 ^ 28 ∧ (0x00000000#32).toNat / 2 ^ 28 = 0
    ∧ (0x10010008#32).toNat / 2 ^ 28 = 1 ∧ (0x10010008#32).toNat / 2 ^ 16 % 2 ^ 12 ≠ 0
    ∧ (0x2000017E#32).toNat / 2 ^ 28 = 2 ∧ (0x2000017E#32).toNat / 2 ^ 8 % 2 ^ 20 ≠ 0
    ∧ (0x31FFFF41#32).toNat / 2 ^ 28 = 3 ∧ (0x31FFFF41#32).toNat / 2 ^ 24 % 2 ^ 4 ≠ 0 := ⟨rfl, rfl, rfl, rfl, rfl, by decide⟩

theorem witness_OverlapAndReentryAreRefused :
    decodeCommand 0x2000007E [] = .ok (.decFeed 0x7E) ∧ (Instr.decFeed 0x7E).isDecoderOp = true
    ∧ decodeCommand 0x50000000 [] = .ok (.encEncode 0 []) ∧ (Instr.encEncode 0 []).isDecoderOp = false
    ∧ (withPending .reset 0x2000007E [] .insideCallback).pending = ⟨0x2000007E, [], .insideCallback⟩ :: []
    ∧ (withPending .reset 0x2000007E [] .overlapping).pending = ⟨0x2000007E, [], .overlapping⟩ :: []
    ∧ (withPending .reset 0x50000000 [] .overlapping).pending = ⟨0x50000000, [], .overlapping⟩ :: [] :=
  ⟨rfl, rfl, rfl, rfl, rfl, rfl, rfl⟩

/-- The premise of each clause, and the clause's outcome on a state that meets it: an operand one byte too long and one byte
too short on a constructed decoder, and a class with either flag before construction. -/
theorem witness_OperationsRefuseByName :
    ([0x41] : Bytes).length ≠ (0#16).toNat ∧ ([] : Bytes).length ≠ (1#16).toNat ∧ State.reset.initialised = false
    ∧ State.reset.setEscape.initialised = false
    ∧ refusalsAfter (.crcCompute 0 [0x41]) heldFrame = some [.lengthMismatch]
    ∧ refusalsAfter (.encEncode 1 []) heldFrame = some [.lengthMismatch]
    ∧ refusalsAfter .boundary State.reset.setEscape = some [.uninitialised] := by decide

theorem witness_OutputsAndRefusalsOnlyGrow :
    (nextOf (step (withPending { heldFrame with refusals := [.badCapacity] } 0x2000007E [] .serial))).isSome = true
    ∧ State.refused (withPending { heldFrame with refusals := [.badCapacity] } 0x2000007E [] .serial) = true := by
  decide +kernel

theorem witness_CrcComputeGivesItsResult : ([0x41, 0x42] : Bytes).length = (2#16).toNat := by decide

theorem witness_StreamingChecksumEqualsBatch : ([0x31, 0x32] : Bytes).length = (2#16).toNat := by decide

theorem witness_FrameWithItsChecksumIsAccepted : heldFrame.wp.toNat = ([0x41, 0x42] : Bytes).length + 2
    ∧ heldFrame.bufPrefix heldFrame.wp.toNat
      = [0x41, 0x42] ++ [hi8 (crcCompute [0x41, 0x42]), lo8 (crcCompute [0x41, 0x42])] := by decide +kernel

/-- Bit 7 of the low trailer byte flipped: the last byte and the last bit. -/
theorem witness_FrameWithOneFlippedBitIsRejected :
    (holding 8 [0x41, 0x42, 0x4B, 0xF4] false).wp.toNat = ([0x41, 0x42] : Bytes).length + 2
    ∧ 3 < ([0x41, 0x42] : Bytes).length + 2 ∧ 7 < 8
    ∧ (holding 8 [0x41, 0x42, 0x4B, 0xF4] false).bufPrefix 4
      = flipBit ([0x41, 0x42] ++ [hi8 (crcCompute [0x41, 0x42]), lo8 (crcCompute [0x41, 0x42])]) 3 7 := by decide +kernel

theorem witness_DecInitLeavesAFreshDecoder : (1#16) ≠ 0 ∧ (0xFFFF#16) ≠ 0 := by decide

theorem witness_DecInitTwiceIsDecInit : (8#16) ≠ 0 ∧ ∃ t, exec (.decInit 8) heldFrame = .next t := ⟨by decide, _, rfl⟩

theorem witness_FeedDoesWhatItsClassDoes : heldFrame.esc = false ∧ heldFrame.setEscape.esc = true
    ∧ (0x7D#8) ≠ 0x7E#8 ∧ (0x7F#8) ≠ 0x7E#8 ∧ (0x7F#8) ≠ 0x7D#8 := by decide

theorem witness_EveryByteCanBeFed : Ready heldFrame := heldFrame_ready

theorem witness_BoundaryAfterEscapeIsAbsorbed : heldFrame.setEscape.initialised = true ∧ heldFrame.setEscape.esc = true := by
  decide

theorem witness_BoundaryDeliversAMatchingFrame :
    heldFrame.initialised = true ∧ heldFrame.esc = false ∧ 2 ≤ heldFrame.wp.toNat ∧ heldFrame.wp.toNat ≤ heldFrame.cap.toNat
    ∧ (crcCompute (heldFrame.bufPrefix (heldFrame.wp.toNat - 2))).toNat
      = (heldFrame.bufAt (heldFrame.wp.toNat - 1)).toNat + 256 * (heldFrame.bufAt (heldFrame.wp.toNat - 2)).toNat := by
  decide +kernel

/-- The smallest frame, `wp = 2` (R107). -/
theorem witness_BoundaryDeliversTheEmptyPayload :
    (crcCompute ((holding 8 [0xFF, 0xFF] false).bufPrefix 0)).toNat
      = ((holding 8 [0xFF, 0xFF] false).bufAt 1).toNat + 256 * ((holding 8 [0xFF, 0xFF] false).bufAt 0).toNat := by
  decide +kernel

theorem witness_BoundaryDiscardsSilently :
    (holding 8 [0x41] false).initialised = true ∧ (holding 8 [0x41] false).esc = false
    ∧ (holding 8 [0x41] false).wp.toNat < 2
    ∧ (holding 8 [0x41, 0x42] false).wp.toNat ≤ (holding 8 [0x41, 0x42] false).cap.toNat
    ∧ (crcCompute ((holding 8 [0x41, 0x42] false).bufPrefix 0)).toNat
      ≠ ((holding 8 [0x41, 0x42] false).bufAt 1).toNat + 256 * ((holding 8 [0x41, 0x42] false).bufAt 0).toNat := by
  decide +kernel

theorem witness_BoundaryAlwaysResets : heldFrame.initialised = true ∧ heldFrame.wp.toNat ≤ heldFrame.cap.toNat := by decide

theorem witness_EscapedByteIsStoredUnescaped : Ready heldFrame.setEscape ∧ heldFrame.setEscape.esc = true
    ∧ (0x7D#8) ≠ 0x7E#8 := ⟨⟨by decide, by decide⟩, by decide, by decide⟩

theorem witness_EscapeOctetSetsTheFlag : heldFrame.initialised = true ∧ heldFrame.esc = false := by decide

/-- Below and at the last index of the buffer. -/
theorem witness_DataByteIsStored : Ready heldFrame ∧ heldFrame.esc = false ∧ (0x5E#8) ≠ 0x7E#8 ∧ (0x5E#8) ≠ 0x7D#8
    ∧ Ready (holding 4 [0x01, 0x02, 0x03] false) :=
  ⟨heldFrame_ready, by decide, by decide, by decide, by decide, by decide⟩

theorem witness_StuffedByteIsStoredUnstuffed : Ready heldFrame ∧ heldFrame.esc = false := ⟨heldFrame_ready, by decide⟩

theorem witness_FullBufferIsDroppedSilently : Ready (holding 2 [] false) ∧ (holding 2 [] false).wp = 0
    ∧ (holding 2 [] false).esc = false ∧ ([0x41, 0x42] : Bytes).length = (holding 2 [] false).cap.toNat
    ∧ ∀ b ∈ ([0x41, 0x42] : Bytes), b ≠ 0x7E#8 ∧ b ≠ 0x7D#8 :=
  ⟨⟨by decide, by decide⟩, by decide, by decide, by decide, by decide⟩

theorem witness_FlagAfterAFeed : heldFrame.initialised = true ∧ ∃ t, exec (.decFeed 0x7D) heldFrame = .next t :=
  ⟨by decide, _, rfl⟩

theorem witness_FrameIsEmittedExactlyOnAMatch : heldFrame.initialised = true
    ∧ (nextOf (exec (.decFeed 0x7E) heldFrame)).isSome = true := by decide +kernel

theorem witness_BoundaryResynchronises : heldFrame.initialised = true ∧ heldFrame.wp.toNat ≤ heldFrame.cap.toNat := by decide

theorem witness_DecSyncResynchronises :
    State.initialised { heldFrame with pending := AsmLine.issues .decSync ++ [] } = true
    ∧ State.pending { heldFrame with pending := AsmLine.issues .decSync ++ [] } = AsmLine.issues .decSync ++ []
    ∧ heldFrame.wp.toNat ≤ heldFrame.cap.toNat := ⟨by decide, rfl, by decide⟩

/-- V-DEC-2, and V-DEC-16 for the small capacity. -/
theorem witness_EmittedFrameFitsTheCapacity : StateInv heldFrame ∧ heldFrame.initialised = true
    ∧ (nextOf (exec (.decFeed 0x7E) heldFrame)).map State.outputs
      = some (heldFrame.outputs ++ [.frame ⟨[0x41, 0x42, 0x4B, 0x74], 4, 2⟩])
    ∧ StateInv (holding 2 [0xFF] false) ∧ (holding 2 [0xFF] false).cap.toNat ≤ 2 :=
  ⟨heldFrame_inv, by decide, by decide +kernel,
    ⟨by decide, by decide, by decide, by decide, by decide +kernel, fun _ h => nomatch h⟩, by decide⟩

theorem witness_EveryStepKeepsTheInvariant : StateInv heldFrame ∧ ∃ t, step heldFrame = .next t := ⟨heldFrame_inv, _, rfl⟩

theorem witness_EveryStepGoesOnUnderTheInvariant : StateInv heldFrame := heldFrame_inv

theorem witness_EveryStepKeepsTheSinkWhole : SinkOfWholeFrames heldFrame ∧ ∃ t, step heldFrame = .next t :=
  ⟨⟨[], rfl⟩, _, rfl⟩

/-- Two states that differ in a stale byte. -/
theorem witness_StaleBytesAreNeverObservable : SameView heldFrame { heldFrame with buf := heldFrame.buf ++ [(6, 0x55)] }
    ∧ heldFrame ≠ { heldFrame with buf := heldFrame.buf ++ [(6, 0x55)] } ∧ ∃ t, step heldFrame = .next t :=
  ⟨⟨by decide +kernel, rfl, rfl⟩, by decide +kernel, _, rfl⟩

theorem witness_RunningChecksumDrivesNothing : ∃ t, step heldFrame = .next t := ⟨_, rfl⟩

theorem witness_RunningChecksumIsTheRecomputation : StateInv heldFrame ∧ 2 ≤ heldFrame.wp.toNat := ⟨heldFrame_inv, by decide⟩

theorem witness_CrcUnitAndEncoderLeaveTheDecoder : (Instr.encEncode 0 []).isDecoderOp = false
    ∧ ∃ t, exec (.encEncode 0 []) heldFrame = .next t := ⟨rfl, _, rfl⟩

/-- The premises of each of the three clauses: an instruction that adds a frame, one that adds sink bytes, one that adds a
result. -/
theorem witness_EachOutputHasOneWriter :
    framesAfter .boundary heldFrame ≠ some heldFrame.frames
    ∧ (nextOf (exec (.encEncode 0 []) heldFrame)).map State.sink ≠ some heldFrame.sink
    ∧ (nextOf (exec (.crcUpdate 0 0) heldFrame)).map State.results ≠ some heldFrame.results := by decide +kernel

theorem witness_OnlyDecInitWritesTheCapacity :
    (nextOf (exec (.decInit 9) heldFrame)).map State.cap ≠ some heldFrame.cap ∧ heldFrame.initialised = true
    ∧ State.reset.initialised = false ∧ (nextOf (exec (.decInit 9) .reset)).map State.initialised = some true := by decide

theorem witness_EncodeEmitsTheWireFrame : ([0x7E] : Bytes).length = (1#16).toNat := by decide

theorem witness_StuffingReplacesTheReservedOctets : (0x5E#8) ≠ 0x7E#8 ∧ (0x5E#8) ≠ 0x7D#8 := by decide

theorem witness_EncodedLengthIsCounted : ([] : Bytes).length = (0#16).toNat := by decide

theorem witness_EncodedFrameIsTransparent : ([0x7D, 0x7E] : Bytes).length = (2#16).toNat := by decide

theorem witness_EncodingDependsOnItsOperandsOnly : ([0x2F] : Bytes).length = (1#16).toNat := by decide

/-- V-DEC-11 and V-DEC-12: payload lengths `C-3` and `C-2`. -/
theorem witness_EncodedFrameRoundTrips :
    ([0x41] : Bytes).length = (1#16).toNat ∧ ([0x41, 0x42] : Bytes).length = (2#16).toNat
    ∧ (nextOf (exec (.encEncode 1 [0x41]) .reset)).map State.sink = some (State.reset.sink ++ [0x7E, 0x41, 0xB9, 0x15, 0x7E])
    ∧ (nextOf (exec (.encEncode 2 [0x41, 0x42]) .reset)).map State.sink
      = some (State.reset.sink ++ [0x7E, 0x41, 0x42, 0x4B, 0x74, 0x7E])
    ∧ StateInv (holding 4 [] false) ∧ (holding 4 [] false).initialised = true ∧ (holding 4 [] false).wp = 0
    ∧ ([0x41] : Bytes).length + 3 ≤ (holding 4 [] false).cap.toNat
    ∧ ([0x41, 0x42] : Bytes).length + 2 = (holding 4 [] false).cap.toNat :=
  ⟨by decide, by decide, by decide +kernel, by decide +kernel,
    ⟨by decide, by decide, by decide, by decide, by decide +kernel, fun _ h => nomatch h⟩, by decide, by decide, by decide, by decide⟩

theorem witness_PendingFeedsArePerformedInOrder :
    State.pending { heldFrame with pending := feedIssues [0x7E, 0x41] } = feedIssues [0x7E, 0x41] := rfl

end Sys2Proof.Tests
end

/-! PROOFS. The scope family (00_scope.md R16, R50): a step is `exec` of the decoded oldest pending operation, and
pending feeds are performed in the order of issue. -/

section
namespace Sys2Proof.Machine

/-! ### A step on an operation that is accepted -/

/-- A serially issued operation is the instruction its word decodes to (R50). -/
theorem accept_serial {w : Word} {p : Bytes} {i : Instr} (h : decodeCommand w p = .ok i) :
    accept ⟨w, p, .serial⟩ = .ok i := by
  simp [accept, decode, h]

theorem step_of_accept {s : State} {iss : Issue} {rest : List Issue} {i : Instr}
    (hp : s.pending = iss :: rest) (ha : accept iss = .ok i) : step s = exec i { s with pending := rest } := by
  simp [step, hp, ha]

/-- Settles O6: the word of a serial issue decodes, so it is accepted, and the step performs what was accepted. -/
theorem stepRunsTheDecodedInstruction : Obligations.StepRunsTheDecodedInstruction :=
  fun _ _ _ _ _ hp hd => step_of_accept hp (accept_serial hd)

/-! ### No instruction looks at the operations pending -/

/-- An outcome with other operations pending in its next state. -/
def outcomeWithPending (q : List Issue) : Outcome → Outcome
  | .next t => .next { t with pending := q }
  | .fault f => .fault f
  | .refused r => .refused r

@[simp] theorem outcomeWithPending_next (q : List Issue) (t : State) :
    outcomeWithPending q (.next t) = .next { t with pending := q } := rfl
@[simp] theorem outcomeWithPending_fault (q : List Issue) (f : Fault) :
    outcomeWithPending q (.fault f) = .fault f := rfl
@[simp] theorem outcomeWithPending_refused (q : List Issue) (r : Refusal) :
    outcomeWithPending q (.refused r) = .refused r := rfl

/-- The path runs the same whatever operations are pending, and leaves them as they are. -/
def IgnoresPending (path : State → Outcome) : Prop :=
  ∀ (s : State) (q : List Issue), path { s with pending := q } = outcomeWithPending q (path s)

theorem IgnoresPending.ite {c : State → Prop} [DecidablePred c] {f g : State → Outcome}
    (hc : ∀ (s : State) q, c { s with pending := q } = c s) (hf : IgnoresPending f) (hg : IgnoresPending g) :
    IgnoresPending fun s => if c s then f s else g s := by
  intro s q
  by_cases h : c s
  · simp [hc, h, hf s q]
  · simp [hc, h, hg s q]

theorem State.updateRunning_setPending (s : State) (q : List Issue) :
    State.updateRunning { s with pending := q } = { s.updateRunning with pending := q } := by
  unfold State.updateRunning
  split <;> rfl

theorem State.overflowGuard_setPending (s : State) (q : List Issue) :
    State.overflowGuard { s with pending := q } = { s.overflowGuard with pending := q } := by
  unfold State.overflowGuard
  split <;> rfl

theorem storeByte_ignoresPending (b : Byte) : IgnoresPending (storeByte b) := by
  refine .ite (fun _ _ => rfl) (fun s q => ?_) (fun _ _ => rfl)
  have hu := State.updateRunning_setPending (s.writeAtPosition b) q
  have ho := State.overflowGuard_setPending (s.writeAtPosition b).updateRunning.advance q
  exact congrArg Host.Outcome.next ((congrArg (State.overflowGuard ∘ State.advance) hu).trans ho)

theorem validateAndReset_ignoresPending : IgnoresPending validateAndReset :=
  .ite (fun _ _ => rfl) (fun _ _ => rfl) <| .ite (fun _ _ => rfl) (fun _ _ => rfl) <|
    .ite (fun _ _ => rfl) (fun _ _ => rfl) (fun _ _ => rfl)

theorem storeUnescaped_ignoresPending (b : Byte) : IgnoresPending (storeUnescaped b) :=
  fun s q => storeByte_ignoresPending (unescape b) s.clearEscape q

theorem absorbEscape_ignoresPending : IgnoresPending absorbEscape := fun _ _ => rfl

theorem noteEscape_ignoresPending : IgnoresPending noteEscape := fun _ _ => rfl

theorem onDecoder_ignoresPending {path : State → Outcome} (h : IgnoresPending path) :
    IgnoresPending (onDecoder path) :=
  .ite (fun _ _ => rfl) h (fun _ _ => rfl)

/-- Running an instruction and choosing the operations pending commute: no instruction reads or writes them. -/
theorem exec_ignoresPending (i : Instr) : IgnoresPending (exec i) := by
  cases i with
  | decInit cap => exact .ite (fun _ _ => rfl) (fun _ _ => rfl) (fun _ _ => rfl)
  | decFeed b =>
    exact onDecoder_ignoresPending <|
      .ite (fun _ _ => rfl)
        (.ite (fun _ _ => rfl) absorbEscape_ignoresPending validateAndReset_ignoresPending)
        (.ite (fun _ _ => rfl) (storeUnescaped_ignoresPending b)
          (.ite (fun _ _ => rfl) noteEscape_ignoresPending (storeByte_ignoresPending b)))
  | crcUpdate run b => exact fun _ _ => rfl
  | crcCompute n p => exact .ite (fun _ _ => rfl) (fun _ _ => rfl) (fun _ _ => rfl)
  | encEncode n p => exact .ite (fun _ _ => rfl) (fun _ _ => rfl) (fun _ _ => rfl)
  | boundaryAfterEscape => exact onDecoder_ignoresPending absorbEscape_ignoresPending
  | boundary => exact onDecoder_ignoresPending validateAndReset_ignoresPending
  | escapedData b => exact onDecoder_ignoresPending (storeUnescaped_ignoresPending b)
  | escape => exact onDecoder_ignoresPending noteEscape_ignoresPending
  | data b => exact onDecoder_ignoresPending (storeByte_ignoresPending b)

/-- An instruction that goes on leaves the operations pending as they are. -/
theorem exec_pending {i : Instr} {s t : State} (h : exec i s = .next t) : t.pending = s.pending := by
  have hs : exec i s = outcomeWithPending s.pending (exec i s) := exec_ignoresPending i s s.pending
  rw [h, outcomeWithPending_next, Host.Outcome.next.injEq] at hs
  exact (congrArg State.pending hs :)

/-! ### Pending feeds -/

/-- The word the assembler writes for `dec.feed` is the format of R65. -/
theorem feedWord_eq_format8 (b : Byte) : 0x20000000#32 ||| b.setWidth 32 = format8 0x2 b := by
  rw [format8, BitVec.append_def]
  rfl

@[simp] theorem decodeCommand_format8_decFeed (b : Byte) (p : Bytes) :
    decodeCommand (format8 0x2 b) p = .ok (.decFeed b) := by
  simp [decodeCommand]

theorem accept_feedIssue (b : Byte) : accept (serialIssue (0x20000000#32 ||| b.setWidth 32) []) = .ok (.decFeed b) :=
  accept_serial (by rw [feedWord_eq_format8, decodeCommand_format8_decFeed])

/-- The step on pending feeds is the first one, with the feeds after it put back in the outcome of a block that has
nothing pending. -/
theorem step_feedIssues_cons {b : Byte} {bs : Bytes} {s : State} (h : s.pending = feedIssues (b :: bs)) :
    step s = outcomeWithPending (feedIssues bs) (exec (.decFeed b) { s with pending := [] }) :=
  (step_of_accept h (accept_feedIssue b)).trans (exec_ignoresPending _ { s with pending := [] } (feedIssues bs))

/-- Settles O57, by induction on the bytes: the first step feeds the first byte and leaves the feeds of the others. -/
theorem pendingFeedsArePerformedInOrder : Obligations.PendingFeedsArePerformedInOrder := by
  intro bs
  induction bs with
  | nil =>
    intro s h
    have hs : { s with pending := [] } = s := congrArg (fun q => { s with pending := q }) h.symm
    exact congrArg Host.Outcome.next hs.symm
  | cons b bs ih =>
    intro s h
    have hstep : Sys2Proof.core.step s = _ := step_feedIssues_cons h
    simp only [List.length_cons, Host.Core.run, feedAll, hstep]
    cases he : exec (.decFeed b) { s with pending := [] } with
    | next t =>
      have ht : { t with pending := [] } = t := congrArg (fun q => { t with pending := q }) (exec_pending he).symm
      have hrun := ih { t with pending := feedIssues bs } rfl
      rwa [ht] at hrun
    | fault f => rfl
    | refused r => rfl

end Sys2Proof.Machine
end

/-! PROOFS. The state family (10_state.md R20 to R35): what the operations leave unchanged, the byte sink as whole frames,
and that neither the stale bytes of the buffer nor the running checksum drive anything. -/

section
namespace Sys2Proof.Machine

variable {s t : State} {n : Half} {p : Bytes} {i : Instr}

/-! ### The CRC unit and the encoder, by the length of the operand -/

theorem operandBytes_of_length (h : p.length = n.toNat) : operandBytes n p = p :=
  List.take_of_length_le (Nat.le_of_eq h)

theorem exec_crcUpdate (run : Half) (b : Byte) (s : State) :
    exec (.crcUpdate run b) s = .next (s.emit [.result (crcUpdate run b)]) := rfl

theorem exec_crcCompute_of_length (h : p.length = n.toNat) (s : State) :
    exec (.crcCompute n p) s = .next (s.emit [.result (crcCompute p)]) := by
  simp [exec, execCrcCompute, h, operandBytes_of_length h]

theorem exec_crcCompute_of_length_ne (h : p.length ≠ n.toNat) (s : State) :
    exec (.crcCompute n p) s = .next (s.refuse .lengthMismatch) := by
  simp [exec, execCrcCompute, h]

theorem exec_encEncode_of_length (h : p.length = n.toNat) (s : State) :
    exec (.encEncode n p) s = .next (s.emit ((wireFrame p).map .sinkByte)) := by
  simp [exec, execEncEncode, h, operandBytes_of_length h]

theorem exec_encEncode_of_length_ne (h : p.length ≠ n.toNat) (s : State) :
    exec (.encEncode n p) s = .next (s.refuse .lengthMismatch) := by
  simp [exec, execEncEncode, h]

/-- An operation of the CRC unit or the encoder appends outputs or is refused. -/
theorem exec_eq_emit_or_refuse (hi : i.isDecoderOp = false) (h : exec i s = .next t) :
    (∃ es, t = s.emit es) ∨ ∃ r, t = s.refuse r := by
  cases i with
  | crcUpdate run b => exact .inl ⟨_, (Host.Outcome.next.inj h).symm⟩
  | crcCompute n p =>
    by_cases hn : p.length = n.toNat
    · rw [exec_crcCompute_of_length hn] at h
      exact .inl ⟨_, (Host.Outcome.next.inj h).symm⟩
    · rw [exec_crcCompute_of_length_ne hn] at h
      exact .inr ⟨_, (Host.Outcome.next.inj h).symm⟩
  | encEncode n p =>
    by_cases hn : p.length = n.toNat
    · rw [exec_encEncode_of_length hn] at h
      exact .inl ⟨_, (Host.Outcome.next.inj h).symm⟩
    · rw [exec_encEncode_of_length_ne hn] at h
      exact .inr ⟨_, (Host.Outcome.next.inj h).symm⟩
  | decInit _ | decFeed _ | boundaryAfterEscape | boundary | escapedData _ | escape | data _ => cases hi

/-! ### The byte sink -/

/-- Bytes put on the byte sink stand there in order. -/
theorem State.emit_sinkBytes_sink (s : State) (w : Bytes) : (s.emit (w.map .sinkByte)).sink = s.sink ++ w := by
  rw [State.emit_sink, List.filterMap_map]
  exact congrArg (s.sink ++ ·) List.filterMap_some

/-- An effect puts on the byte sink one whole frame or nothing. -/
theorem Effect.sink_eq (h : Effect s t) : t.sink = s.sink ∨ ∃ p, t.sink = s.sink ++ wireFrame p := by
  cases h with
  | sent p => exact .inr ⟨p, s.emit_sinkBytes_sink _⟩
  | stored b t _ hb =>
    obtain ⟨-, rfl⟩ := storeByte_eq_next.1 hb
    exact .inl (by simp)
  | storedUnescaped b t _ hb =>
    obtain ⟨-, rfl⟩ := storeByte_eq_next.1 hb
    exact .inl (by simp)
  | result | delivered => exact .inl (by simp [Event.sinkByte?])
  | refused | constructed | absorbed | discarded | escaped => exact .inl rfl

theorem Effect.keeps_sinkOfWholeFrames (hs : SinkOfWholeFrames s) (h : Effect s t) : SinkOfWholeFrames t := by
  obtain ⟨ps, hps⟩ := hs
  obtain ht | ⟨p, ht⟩ := h.sink_eq
  · exact ⟨ps, ht.trans hps⟩
  · exact ⟨ps ++ [p], by simp [ht, hps]⟩

/-- Settles O44: the sink is no pending operation, and every effect appends to it one whole frame or nothing. -/
theorem everyStepKeepsTheSinkWhole : Obligations.EveryStepKeepsTheSinkWhole :=
  fun _ _ hs h => step_keeps (fun _ _ hs => hs) (fun _ _ hs he => he.keeps_sinkOfWholeFrames hs) hs h

/-! ### Relations between states that the operations respect -/

/-- Two outcomes with related next states, or the same stop. -/
inductive OutcomesRelated (R : State → State → Prop) : Outcome → Outcome → Prop where
  | next {s t : State} (h : R s t) : OutcomesRelated R (.next s) (.next t)
  | fault (f : Fault) : OutcomesRelated R (.fault f) (.fault f)
  | refused (r : Refusal) : OutcomesRelated R (.refused r) (.refused r)

/-- From related states the path has related outcomes. -/
def Respects (R : State → State → Prop) (path : State → Outcome) : Prop :=
  ∀ s t, R s t → OutcomesRelated R (path s) (path t)

/-- What makes a relation one that a step respects: related states agree in all that decides a path or goes out of the
block, and each update of the state keeps them related. -/
structure StepRelation (R : State → State → Prop) : Prop where
  cap {s t : State} : R s t → s.cap = t.cap
  wp {s t : State} : R s t → s.wp = t.wp
  esc {s t : State} : R s t → s.esc = t.esc
  initialised {s t : State} : R s t → s.initialised = t.initialised
  pending {s t : State} : R s t → s.pending = t.pending
  frameHeld {s t : State} : R s t → s.frameHeld = t.frameHeld
  trailerMatches {s t : State} : R s t → 2 ≤ s.wp.toNat → s.trailerMatches = t.trailerMatches
  setPending {s t : State} (q : List Issue) : R s t → R { s with pending := q } { t with pending := q }
  emit {s t : State} (es : List Event) : R s t → R (s.emit es) (t.emit es)
  refuse {s t : State} (r : RefusalReason) : R s t → R (s.refuse r) (t.refuse r)
  setEscape {s t : State} : R s t → R s.setEscape t.setEscape
  clearEscape {s t : State} : R s t → R s.clearEscape t.clearEscape
  resetPosition {s t : State} : R s t → R s.resetPosition t.resetPosition
  construct {s t : State} (c : Half) : R s t →
    R { s.drawBuffer.resetPosition.clearEscape with cap := c, initialised := true }
      { t.drawBuffer.resetPosition.clearEscape with cap := c, initialised := true }
  store {s t s' t' : State} (b : Byte) : R s t → storeByte b s = .next s' → storeByte b t = .next t' → R s' t'

section
variable {R : State → State → Prop}

theorem Respects.ite {c : State → Prop} [DecidablePred c] {f g : State → Outcome}
    (hc : ∀ s t, R s t → (c s ↔ c t)) (hf : Respects R f) (hg : Respects R g) :
    Respects R fun s => if c s then f s else g s := by
  intro s t h
  by_cases hs : c s
  · simpa [hs, (hc s t h).1 hs] using hf s t h
  · simpa [hs, mt (hc s t h).2 hs] using hg s t h

namespace StepRelation
variable (hR : StepRelation R)
include hR

theorem respects_refuse (r : RefusalReason) : Respects R fun s => .next (s.refuse r) :=
  fun _ _ h => .next (hR.refuse r h)

theorem respects_emit (es : List Event) : Respects R fun s => .next (s.emit es) :=
  fun _ _ h => .next (hR.emit es h)

theorem respects_absorbEscape : Respects R absorbEscape :=
  fun _ _ h => .next (hR.resetPosition (hR.clearEscape h))

theorem respects_noteEscape : Respects R noteEscape := fun _ _ h => .next (hR.setEscape h)

theorem respects_validateAndReset : Respects R validateAndReset := by
  intro s t h
  unfold validateAndReset
  rw [← hR.wp h, ← hR.cap h, ← hR.frameHeld h]
  split
  · exact .next (hR.resetPosition h)
  next hw =>
    split
    · exact .fault _
    · rw [← hR.trailerMatches h (Nat.le_of_not_lt hw)]
      split
      · exact .next (hR.resetPosition (hR.emit _ h))
      · exact .next (hR.resetPosition h)

theorem respects_storeByte (b : Byte) : Respects R (storeByte b) := by
  intro s t h
  have hstore := fun s' t' => hR.store (s' := s') (t' := t') b h
  unfold storeByte at hstore ⊢
  rw [← hR.wp h, ← hR.cap h] at hstore ⊢
  split
  next hw => exact .next (hstore _ _ (if_pos hw) (if_pos hw))
  · exact .fault _

theorem respects_storeUnescaped (b : Byte) : Respects R (storeUnescaped b) :=
  fun _ _ h => hR.respects_storeByte _ _ _ (hR.clearEscape h)

theorem respects_onDecoder {path : State → Outcome} (h : Respects R path) : Respects R (onDecoder path) :=
  .ite (fun _ _ h => by rw [hR.initialised h]) h (hR.respects_refuse _)

theorem respects_exec (i : Instr) : Respects R (exec i) := by
  cases i with
  | decInit cap => exact .ite (fun _ _ _ => .rfl) (hR.respects_refuse _) (fun _ _ h => .next (hR.construct cap h))
  | decFeed b =>
    have hesc : ∀ s t, R s t → (s.esc = true ↔ t.esc = true) := fun _ _ h => by rw [hR.esc h]
    exact hR.respects_onDecoder <|
      .ite (fun _ _ _ => .rfl)
        (.ite hesc hR.respects_absorbEscape hR.respects_validateAndReset)
        (.ite hesc (hR.respects_storeUnescaped b)
          (.ite (fun _ _ _ => .rfl) hR.respects_noteEscape (hR.respects_storeByte b)))
  | crcUpdate run b => exact hR.respects_emit _
  | crcCompute n p => exact .ite (fun _ _ _ => .rfl) (hR.respects_emit _) (hR.respects_refuse _)
  | encEncode n p => exact .ite (fun _ _ _ => .rfl) (hR.respects_emit _) (hR.respects_refuse _)
  | boundaryAfterEscape => exact hR.respects_onDecoder hR.respects_absorbEscape
  | boundary => exact hR.respects_onDecoder hR.respects_validateAndReset
  | escapedData b => exact hR.respects_onDecoder (hR.respects_storeUnescaped b)
  | escape => exact hR.respects_onDecoder hR.respects_noteEscape
  | data b => exact hR.respects_onDecoder (hR.respects_storeByte b)

/-- The same operation is the oldest pending one in related states, so a step has related outcomes. -/
theorem respects_step : Respects R step := by
  intro s t h
  unfold step
  rw [← hR.pending h]
  split
  · exact .next h
  next iss rest _ =>
    split
    · exact .next (hR.refuse _ (hR.setPending rest h))
    next i _ => exact hR.respects_exec i _ _ (hR.setPending rest h)

/-- A step that goes on goes on from every related state, to a related one. -/
theorem exists_step_next {s t s' : State} (h : R s t) (hs : step s = .next s') :
    ∃ t', step t = .next t' ∧ R s' t' := by
  have hrel := hR.respects_step s t h
  rw [hs] at hrel
  cases ht : step t with
  | next t' =>
    rw [ht] at hrel
    cases hrel with
    | next h' => exact ⟨t', rfl, h'⟩
  | fault f => rw [ht] at hrel; cases hrel
  | refused r => rw [ht] at hrel; cases hrel

end StepRelation
end

/-! ### Stale bytes of the buffer -/

/-- The observation field by field: the held bytes are those below the position. -/
theorem State.observe_eq_iff : s.observe = t.observe ↔
    s.outputs = t.outputs ∧ s.cap = t.cap ∧ s.wp = t.wp ∧ s.esc = t.esc ∧ s.rcrc = t.rcrc ∧
      (∀ i < s.wp.toNat, s.bufAt i = t.bufAt i) ∧ s.refused = t.refused := by
  simp only [State.observe, Observation.mk.injEq]
  constructor
  · rintro ⟨ho, hc, hw, he, hr, hh, hm⟩
    rw [← hw] at hh
    exact ⟨ho, hc, hw, he, hr, State.bufPrefix_eq_iff.1 hh, hm⟩
  · rintro ⟨ho, hc, hw, he, hr, hb, hm⟩
    exact ⟨ho, hc, hw, he, hr, hw ▸ State.bufPrefix_congr hb, hm⟩

@[simp] theorem State.refuse_refused (s : State) (r : RefusalReason) : (s.refuse r).refused = true := by
  simp [State.refused]

namespace SameView

theorem wp_eq (h : SameView s t) : s.wp = t.wp := congrArg Observation.wp h.observed

theorem cap_eq (h : SameView s t) : s.cap = t.cap := congrArg Observation.cap h.observed

theorem esc_eq (h : SameView s t) : s.esc = t.esc := congrArg Observation.esc h.observed

theorem bufAt_eq (h : SameView s t) {i : Nat} (hi : i < s.wp.toNat) : s.bufAt i = t.bufAt i := by
  obtain ⟨-, -, -, -, -, hb, -⟩ := State.observe_eq_iff.1 h.observed
  exact hb i hi

theorem frameHeld_eq (h : SameView s t) : s.frameHeld = t.frameHeld := by
  have hheld : s.bufPrefix s.wp.toNat = t.bufPrefix t.wp.toNat := congrArg Observation.held h.observed
  rw [State.frameHeld, State.frameHeld, hheld, h.wp_eq]

/-- The trailer and the bytes before it are held, so their comparison is the same. -/
theorem trailerMatches_eq (h : SameView s t) (h2 : 2 ≤ s.wp.toNat) : s.trailerMatches = t.trailerMatches := by
  have hpayload : s.bufPrefix (s.wp.toNat - 2) = t.bufPrefix (s.wp.toNat - 2) :=
    State.bufPrefix_congr fun i hi => h.bufAt_eq (by omega)
  have hhigh := h.bufAt_eq (i := s.wp.toNat - 2) (by omega)
  have hlow := h.bufAt_eq (i := s.wp.toNat - 1) (by omega)
  simp [State.trailerMatches, Config.trailerLength, ← h.wp_eq, hpayload, hhigh, hlow]

/-- The next position is the old one plus one or 0, and the byte of R112 that enters the running checksum is held: a store
reads no stale byte and leaves none below the position. -/
theorem store {s' t' : State} (b : Byte) (h : SameView s t) (hs : storeByte b s = .next s')
    (ht : storeByte b t = .next t') : SameView s' t' := by
  obtain ⟨s₁, hs₁, ss, hse, -, -⟩ := storeByte_stores (b := b) (storeByte_eq_next.1 hs).1
  obtain ⟨t₁, ht₁, st, hte, -, -⟩ := storeByte_stores (b := b) (storeByte_eq_next.1 ht).1
  obtain rfl : s₁ = s' := Host.Outcome.next.inj (hs₁.symm.trans hs)
  obtain rfl : t₁ = t' := Host.Outcome.next.inj (ht₁.symm.trans ht)
  obtain ⟨ho, hc, hw, he, hr, hb, hm⟩ := State.observe_eq_iff.1 h.observed
  have hrunning : s₁.rcrc = t₁.rcrc := by
    rw [ss.running, st.running, ← hw, ← hc, ← hr]
    split
    · rfl
    · split
      next h2 => rw [hb _ (by omega)]
      · rfl
  have hbytes : ∀ i < s₁.wp.toNat, s₁.bufAt i = t₁.bufAt i := by
    intro i hi
    have hle : i < s.wp.toNat + 1 := by
      rw [ss.position] at hi
      split at hi <;> omega
    by_cases hiw : i = s.wp.toNat
    · rw [hiw, ss.stored, hw, st.stored]
    · rw [ss.otherBytes i hiw, st.otherBytes i (hw ▸ hiw), hb i (by omega)]
  refine ⟨State.observe_eq_iff.2 ⟨?_, ?_, ?_, ?_, hrunning, hbytes, ?_⟩, ?_, ?_⟩
  · rw [ss.outputs, st.outputs, ho]
  · rw [ss.cap, st.cap, hc]
  · exact BitVec.eq_of_toNat_eq (by rw [ss.position, st.position, hw, hc])
  · rw [hse, hte, he]
  · simp only [State.refused, ss.refusals, st.refusals]
    exact hm
  · rw [ss.initialised, st.initialised, h.initialised]
  · rw [ss.pending, st.pending, h.pending]

end SameView

/-- No operation tells apart two states with the same view. -/
theorem sameView_stepRelation : StepRelation SameView where
  cap h := h.cap_eq
  wp h := h.wp_eq
  esc h := h.esc_eq
  initialised h := h.initialised
  pending h := h.pending
  frameHeld h := h.frameHeld_eq
  trailerMatches h := h.trailerMatches_eq
  setPending q h := ⟨h.observed, h.initialised, rfl⟩
  emit es h := ⟨congrArg (fun o => { o with outputs := o.outputs ++ es }) h.observed, h.initialised, h.pending⟩
  refuse r h := by
    obtain ⟨ho, hc, hw, he, hr, hb, -⟩ := State.observe_eq_iff.1 h.observed
    exact ⟨State.observe_eq_iff.2 ⟨ho, hc, hw, he, hr, hb, by simp⟩, h.initialised, h.pending⟩
  setEscape h := ⟨congrArg (fun o => { o with esc := true }) h.observed, h.initialised, h.pending⟩
  clearEscape h := ⟨congrArg (fun o => { o with esc := false }) h.observed, h.initialised, h.pending⟩
  resetPosition h :=
    ⟨congrArg (fun o => { o with wp := 0, rcrc := Config.crcInit, held := [] }) h.observed, h.initialised, h.pending⟩
  construct c h :=
    ⟨congrArg (fun o => { o with cap := c, wp := 0, esc := false, rcrc := Config.crcInit, held := [] }) h.observed,
      rfl, h.pending⟩
  store b h hs ht := h.store b hs ht

/-- Settles O45: having the same view is a relation that a step respects. -/
theorem staleBytesAreNeverObservable : Obligations.StaleBytesAreNeverObservable :=
  fun _ _ _ h hs => sameView_stepRelation.exists_step_next h hs

/-! ### The running checksum -/

/-- `t` is `s` with some other running checksum. -/
def SameButRunning (s t : State) : Prop := ∃ v : Half, t = { s with rcrc := v }

namespace SameButRunning

theorem updateRunning (h : SameButRunning s t) : SameButRunning s.updateRunning t.updateRunning := by
  obtain ⟨v, rfl⟩ := h
  unfold State.updateRunning
  dsimp only
  split <;> exact ⟨_, rfl⟩

theorem overflowGuard (h : SameButRunning s t) : SameButRunning s.overflowGuard t.overflowGuard := by
  obtain ⟨v, rfl⟩ := h
  unfold State.overflowGuard
  dsimp only
  split <;> exact ⟨_, rfl⟩

theorem writeAtPosition (b : Byte) (h : SameButRunning s t) :
    SameButRunning (s.writeAtPosition b) (t.writeAtPosition b) := by
  obtain ⟨v, rfl⟩ := h
  exact ⟨v, rfl⟩

theorem advance (h : SameButRunning s t) : SameButRunning s.advance t.advance := by
  obtain ⟨v, rfl⟩ := h
  exact ⟨v, rfl⟩

theorem store {s' t' : State} (b : Byte) (h : SameButRunning s t) (hs : storeByte b s = .next s')
    (ht : storeByte b t = .next t') : SameButRunning s' t' := by
  obtain ⟨-, rfl⟩ := storeByte_eq_next.1 hs
  obtain ⟨-, rfl⟩ := storeByte_eq_next.1 ht
  exact (h.writeAtPosition b).updateRunning.advance.overflowGuard

end SameButRunning

/-- No operation reads the running checksum for anything but its own next value. -/
theorem sameButRunning_stepRelation : StepRelation SameButRunning where
  cap := fun ⟨_, h⟩ => h ▸ rfl
  wp := fun ⟨_, h⟩ => h ▸ rfl
  esc := fun ⟨_, h⟩ => h ▸ rfl
  initialised := fun ⟨_, h⟩ => h ▸ rfl
  pending := fun ⟨_, h⟩ => h ▸ rfl
  frameHeld := fun ⟨_, h⟩ => h ▸ rfl
  trailerMatches := fun ⟨_, h⟩ _ => h ▸ rfl
  setPending _ := fun ⟨v, h⟩ => ⟨v, h ▸ rfl⟩
  emit _ := fun ⟨v, h⟩ => ⟨v, h ▸ rfl⟩
  refuse _ := fun ⟨v, h⟩ => ⟨v, h ▸ rfl⟩
  setEscape := fun ⟨v, h⟩ => ⟨v, h ▸ rfl⟩
  clearEscape := fun ⟨v, h⟩ => ⟨v, h ▸ rfl⟩
  resetPosition := fun ⟨_, h⟩ => ⟨Config.crcInit, h ▸ rfl⟩
  construct _ := fun ⟨_, h⟩ => ⟨Config.crcInit, h ▸ rfl⟩
  store b h hs ht := h.store b hs ht

/-- Settles O46: differing in the running checksum only is a relation that a step respects. -/
theorem runningChecksumDrivesNothing : Obligations.RunningChecksumDrivesNothing := by
  intro s t v h
  obtain ⟨_, ht', v', rfl⟩ := sameButRunning_stepRelation.exists_step_next (t := { s with rcrc := v }) ⟨v, rfl⟩ h
  exact ⟨v', ht'⟩

/-! ### The capacity and the mark of construction -/

/-- The path leaves the capacity and the mark of R35 as they are. -/
def KeepsConstruction (path : State → Outcome) : Prop :=
  ∀ s t, path s = .next t → t.cap = s.cap ∧ t.initialised = s.initialised

theorem absorbEscape_keepsConstruction : KeepsConstruction absorbEscape := by
  rintro s _ ⟨⟩
  exact ⟨rfl, rfl⟩

theorem noteEscape_keepsConstruction : KeepsConstruction noteEscape := by
  rintro s _ ⟨⟩
  exact ⟨rfl, rfl⟩

theorem validateAndReset_keepsConstruction : KeepsConstruction validateAndReset := by
  intro s t h
  obtain ⟨-, -, -, rfl⟩ | ⟨-, rfl⟩ := validateAndReset_eq_next.1 h <;> exact ⟨rfl, rfl⟩

theorem storeByte_keepsConstruction (b : Byte) : KeepsConstruction (storeByte b) := by
  intro s t h
  obtain ⟨-, rfl⟩ := storeByte_eq_next.1 h
  constructor <;> simp

theorem storeUnescaped_keepsConstruction (b : Byte) : KeepsConstruction (storeUnescaped b) :=
  fun s t h => storeByte_keepsConstruction (unescape b) s.clearEscape t h

theorem onDecoder_keepsConstruction {path : State → Outcome} (hp : KeepsConstruction path) :
    KeepsConstruction (onDecoder path) := by
  intro s t h
  cases hi : s.initialised with
  | false =>
    rw [onDecoder_unconstructed hi] at h
    cases h
    exact ⟨rfl, hi⟩
  | true =>
    rw [onDecoder_constructed hi] at h
    exact hi ▸ hp s t h

theorem KeepsConstruction.ite {c : State → Prop} [DecidablePred c] {f g : State → Outcome}
    (hf : KeepsConstruction f) (hg : KeepsConstruction g) : KeepsConstruction fun s => if c s then f s else g s := by
  intro s t h
  dsimp only at h
  split at h
  · exact hf s t h
  · exact hg s t h

theorem exec_keepsConstruction_of_not_decoderOp (hi : i.isDecoderOp = false) : KeepsConstruction (exec i) := by
  intro s t h
  obtain ⟨es, rfl⟩ | ⟨r, rfl⟩ := exec_eq_emit_or_refuse hi h <;> exact ⟨rfl, rfl⟩

theorem exec_keepsConstruction (hi : ∀ cap, i ≠ .decInit cap) : KeepsConstruction (exec i) := by
  cases i with
  | decInit cap => exact absurd rfl (hi cap)
  | decFeed b =>
    exact onDecoder_keepsConstruction <|
      .ite (.ite absorbEscape_keepsConstruction validateAndReset_keepsConstruction)
        (.ite (storeUnescaped_keepsConstruction b)
          (.ite noteEscape_keepsConstruction (storeByte_keepsConstruction b)))
  | crcUpdate run b => exact exec_keepsConstruction_of_not_decoderOp rfl
  | crcCompute n p => exact exec_keepsConstruction_of_not_decoderOp rfl
  | encEncode n p => exact exec_keepsConstruction_of_not_decoderOp rfl
  | boundaryAfterEscape => exact onDecoder_keepsConstruction absorbEscape_keepsConstruction
  | boundary => exact onDecoder_keepsConstruction validateAndReset_keepsConstruction
  | escapedData b => exact onDecoder_keepsConstruction (storeUnescaped_keepsConstruction b)
  | escape => exact onDecoder_keepsConstruction noteEscape_keepsConstruction
  | data b => exact onDecoder_keepsConstruction (storeByte_keepsConstruction b)

theorem exec_decInit_zero (s : State) : exec (.decInit 0) s = .next (s.refuse .badCapacity) := rfl

/-- `DEC_INIT` is refused, or it leaves its capacity on a constructed decoder. -/
theorem exec_decInit_cap_initialised {cap : Half} (h : exec (.decInit cap) s = .next t) :
    (t.cap = s.cap ∧ t.initialised = s.initialised) ∨ (t.cap = cap ∧ t.initialised = true) := by
  simp only [exec, execDecInit] at h
  split at h <;> cases h
  · exact .inl ⟨rfl, rfl⟩
  · exact .inr ⟨rfl, rfl⟩

/-- Settles O50: `DEC_INIT` is refused or constructs with its own capacity, and every other operation keeps both. -/
theorem onlyDecInitWritesTheCapacity : Obligations.OnlyDecInitWritesTheCapacity := by
  intro i s t h
  by_cases hi : ∃ cap, i = .decInit cap
  · obtain ⟨cap, rfl⟩ := hi
    refine ⟨fun hne => ?_, fun hs => ?_, fun _ _ => ⟨cap, rfl⟩⟩
    · obtain ⟨hc, -⟩ | ⟨hc, -⟩ := exec_decInit_cap_initialised h
      · exact absurd hc hne
      · rw [hc]
    · obtain ⟨-, ht⟩ | ⟨-, ht⟩ := exec_decInit_cap_initialised h
      · rw [ht, hs]
      · exact ht
  · obtain ⟨hc, hm⟩ := exec_keepsConstruction (not_exists.1 hi) s t h
    exact ⟨fun hne => absurd hc hne, fun hs => hm.trans hs, fun hs ht => by simp [hm, hs] at ht⟩

/-! ### One operation -/

/-- Settles O12: each operation refuses by the test it makes first. -/
theorem operationsRefuseByName : Obligations.OperationsRefuseByName := by
  intro s
  refine ⟨exec_decInit_zero s, fun n p hn => ⟨exec_crcCompute_of_length_ne hn s, exec_encEncode_of_length_ne hn s⟩, ?_⟩
  intro hs b
  have hrefuse (path) : onDecoder path s = .next (s.refuse .uninitialised) := onDecoder_unconstructed hs
  have hfeed : execDecFeed b s = .next (s.refuse .uninitialised) := hrefuse _
  exact ⟨hfeed, hrefuse absorbEscape, hrefuse validateAndReset, hrefuse (storeUnescaped b), hrefuse noteEscape,
    hrefuse (storeByte b)⟩

/-- A result put out is one more result, and no sink byte or frame. -/
theorem State.emit_result_views (s : State) (v : Half) :
    (s.emit [.result v]).results = s.results ++ [v] ∧ (s.emit [.result v]).sink = s.sink ∧
      (s.emit [.result v]).frames = s.frames := by
  simp [Event.result?, Event.sinkByte?, Event.frame?]

/-- Settles O15: the operation is one emitted result (R83), and the views of the outputs follow. -/
theorem crcUpdateGivesItsResult : Obligations.CrcUpdateGivesItsResult :=
  fun run b s => ⟨_, exec_crcUpdate run b s, rfl, s.emit_result_views _⟩

/-- Settles O16: the operand has the length of the word, so all of it is read. -/
theorem crcComputeGivesItsResult : Obligations.CrcComputeGivesItsResult :=
  fun _ _ s hn => ⟨_, exec_crcCompute_of_length hn s, rfl, s.emit_result_views _⟩

/-- Settles O55: what is emitted is the wire frame of the operand, whatever the state. -/
theorem encodingDependsOnItsOperandsOnly : Obligations.EncodingDependsOnItsOperandsOnly :=
  fun _ p s s' hn => ⟨_, _, wireFrame p, exec_encEncode_of_length hn s, exec_encEncode_of_length hn s',
    s.emit_sinkBytes_sink _, s'.emit_sinkBytes_sink _⟩

/-- Settles O48: appending outputs and refusing touch no decoder state. -/
theorem crcUnitAndEncoderLeaveTheDecoder : Obligations.CrcUnitAndEncoderLeaveTheDecoder := by
  intro i s t hi h
  obtain ⟨es, rfl⟩ | ⟨r, rfl⟩ := exec_eq_emit_or_refuse hi h <;>
    exact ⟨rfl, rfl, fun _ => rfl, rfl, rfl, rfl, rfl, rfl⟩

/-! ### Reset -/

/-- Nothing is held, listed or emitted, and the running checksum is that of no bytes. -/
theorem reset_stateInv : StateInv State.reset where
  canonical := reset_buf_wf
  insideCapacity _ hc := nomatch hc
  positionBound hi := nomatch hi
  written _ hi := absurd hi (Nat.not_lt_zero _)
  running := crcCompute_nil.symm
  framesValid _ hf := nomatch hf

/-- Settles O41: the block starts with nothing held and nothing put out. -/
theorem invariantHoldsAtReset : Obligations.InvariantHoldsAtReset := ⟨reset_stateInv, [], rfl⟩

end Sys2Proof.Machine
end

/-! PROOFS. The memory family (20_memory.md R40 to R50): the output streams are append-only and each has one writer, the
only stop is an access outside the buffer, operations that overlap or re-enter are refused, and `DEC_INIT` is idempotent. -/

section
namespace Sys2Proof.Machine

variable {s t : State} {i : Instr}

/-! ### Construction -/

theorem exec_decInit_of_ne_zero {cap : Half} (h : cap ≠ 0) (s : State) : exec (.decInit cap) s
    = .next { s.drawBuffer.resetPosition.clearEscape with cap := cap, initialised := true } := by
  simp only [exec, execDecInit, if_neg h]

/-- Settles O24: `DEC_INIT` writes every decoder register from `cap` alone, and nothing else but the buffer (R100). -/
theorem decInitTwiceIsDecInit : Obligations.DecInitTwiceIsDecInit := by
  intro cap s t hc h
  rw [exec_decInit_of_ne_zero hc] at h
  cases h
  exact ⟨_, exec_decInit_of_ne_zero hc _, rfl⟩

/-! ### What one instruction appends to the outputs -/

/-- The unit that writes an event (R64): the boundary octet a frame, the encoder a sink byte, the CRC unit a result. -/
def Writes (i : Instr) : Event → Prop
  | .frame _ => i = .boundary ∨ i = .decFeed 0x7E#8
  | .sinkByte _ => ∃ n p, i = .encEncode n p
  | .result _ => (∃ run b, i = .crcUpdate run b) ∨ ∃ n p, i = .crcCompute n p

/-- An outcome that goes on has the outputs of `s` and after them only events that satisfy `P`. -/
def AppendsOnly (P : Event → Prop) (s : State) (o : Outcome) : Prop :=
  ∀ t, o = .next t → ∃ es, t.outputs = s.outputs ++ es ∧ ∀ e ∈ es, P e

section
variable {P : Event → Prop}

theorem appendsOnly_emit {es : List Event} (h : ∀ e ∈ es, P e) : AppendsOnly P s (.next (s.emit es)) := by
  rintro _ ⟨⟩
  exact ⟨es, rfl, h⟩

theorem appendsOnly_of_outputs_eq (h : t.outputs = s.outputs) : AppendsOnly P s (.next t) := by
  rintro _ ⟨⟩
  exact ⟨[], by simp [h], by simp⟩

theorem appendsOnly_storeByte (b : Byte) (s : State) : AppendsOnly P s (storeByte b s) := by
  intro t h
  obtain ⟨-, rfl⟩ := storeByte_eq_next.1 h
  exact ⟨[], by simp, by simp⟩

theorem appendsOnly_storeUnescaped (b : Byte) (s : State) : AppendsOnly P s (storeUnescaped b s) :=
  appendsOnly_storeByte (unescape b) s.clearEscape

theorem appendsOnly_absorbEscape (s : State) : AppendsOnly P s (absorbEscape s) := appendsOnly_of_outputs_eq rfl

theorem appendsOnly_noteEscape (s : State) : AppendsOnly P s (noteEscape s) := appendsOnly_of_outputs_eq rfl

theorem appendsOnly_validateAndReset (hP : ∀ f, P (.frame f)) (s : State) :
    AppendsOnly P s (validateAndReset s) := by
  intro t h
  obtain ⟨-, -, -, rfl⟩ | ⟨-, rfl⟩ := validateAndReset_eq_next.1 h
  · exact ⟨[.frame s.frameHeld], rfl, by simp [hP]⟩
  · exact ⟨[], by simp, by simp⟩

theorem appendsOnly_onDecoder {path : State → Outcome} (h : AppendsOnly P s (path s)) :
    AppendsOnly P s (onDecoder path s) := by
  cases hi : s.initialised with
  | false =>
    rw [onDecoder_unconstructed hi]
    exact appendsOnly_of_outputs_eq rfl
  | true => rwa [onDecoder_constructed hi]

end

/-- An instruction appends only events of which its unit is the writer. -/
theorem exec_appendsOnly (i : Instr) (s : State) : AppendsOnly (Writes i) s (exec i s) := by
  cases i with
  | decInit cap =>
    by_cases hc : cap = 0
    · subst hc
      exact appendsOnly_of_outputs_eq rfl
    · rw [exec_decInit_of_ne_zero hc]
      exact appendsOnly_of_outputs_eq rfl
  | decFeed b =>
    simp only [exec, execDecFeed]
    refine appendsOnly_onDecoder ?_
    split
    · next hb =>
      split
      · exact appendsOnly_absorbEscape s
      · exact appendsOnly_validateAndReset (fun _ => .inr (congrArg Instr.decFeed hb)) s
    · split
      · exact appendsOnly_storeUnescaped b s
      · split
        · exact appendsOnly_noteEscape s
        · exact appendsOnly_storeByte b s
  | crcUpdate run b => exact appendsOnly_emit (by simp [Writes])
  | crcCompute n p =>
    by_cases hn : p.length = n.toNat
    · rw [exec_crcCompute_of_length hn]
      exact appendsOnly_emit (by simp [Writes])
    · rw [exec_crcCompute_of_length_ne hn]
      exact appendsOnly_of_outputs_eq rfl
  | encEncode n p =>
    by_cases hn : p.length = n.toNat
    · rw [exec_encEncode_of_length hn]
      exact appendsOnly_emit (by simp [Writes])
    · rw [exec_encEncode_of_length_ne hn]
      exact appendsOnly_of_outputs_eq rfl
  | boundaryAfterEscape => exact appendsOnly_onDecoder (appendsOnly_absorbEscape s)
  | boundary => exact appendsOnly_onDecoder (appendsOnly_validateAndReset (fun _ => .inl rfl) s)
  | escapedData b => exact appendsOnly_onDecoder (appendsOnly_storeUnescaped b s)
  | escape => exact appendsOnly_onDecoder (appendsOnly_noteEscape s)
  | data b => exact appendsOnly_onDecoder (appendsOnly_storeByte b s)

/-- An instruction that changes a view of the outputs is the writer of an event in that view. -/
theorem exists_writes_of_view_ne {α : Type} {view : Event → Option α} (h : exec i s = .next t)
    (hne : t.outputs.filterMap view ≠ s.outputs.filterMap view) : ∃ e v, view e = some v ∧ Writes i e := by
  obtain ⟨es, ho, hw⟩ := exec_appendsOnly i s t h
  have hes : es.filterMap view ≠ [] := fun hnil => hne (by simp [ho, hnil])
  obtain ⟨v, hv⟩ := List.exists_mem_of_ne_nil _ hes
  obtain ⟨e, he, hev⟩ := List.mem_filterMap.1 hv
  exact ⟨e, v, hev, hw e he⟩

/-- Settles O49: a view that changed has a new event, and its writer is the instruction. -/
theorem eachOutputHasOneWriter : Obligations.EachOutputHasOneWriter := by
  intro i s t h
  refine ⟨fun hne => ?_, fun hne => ?_, fun hne => ?_⟩
  · match exists_writes_of_view_ne h hne with
    | ⟨.frame _, _, _, hw⟩ => exact hw
  · match exists_writes_of_view_ne h hne with
    | ⟨.sinkByte _, _, _, hw⟩ => exact hw
  · match exists_writes_of_view_ne h hne with
    | ⟨.result _, _, _, hw⟩ => exact hw

/-! ### What a step appends -/

theorem Effect.outputs_prefix (h : Effect s t) : s.outputs <+: t.outputs := by
  cases h with
  | result | sent | delivered => exact List.prefix_append _ _
  | stored b t _ hb | storedUnescaped b t _ hb =>
    obtain ⟨-, rfl⟩ := storeByte_eq_next.1 hb
    simp
  | refused | constructed | absorbed | discarded | escaped => exact List.prefix_rfl

theorem Effect.refusals_prefix (h : Effect s t) : s.refusals <+: t.refusals := by
  cases h with
  | refused r => exact List.prefix_append _ _
  | stored b t _ hb | storedUnescaped b t _ hb =>
    obtain ⟨-, rfl⟩ := storeByte_eq_next.1 hb
    simp
  | result | sent | delivered | constructed | absorbed | discarded | escaped => exact List.prefix_rfl

theorem State.refused_iff (s : State) : s.refused = true ↔ s.refusals ≠ [] := by
  simp [State.refused]

/-- Settles O13: every effect appends to both lists, and the mark is that the list of refusals is not empty. -/
theorem outputsAndRefusalsOnlyGrow : Obligations.OutputsAndRefusalsOnlyGrow := by
  intro s t h
  have ho : s.outputs <+: t.outputs :=
    step_keeps (P := fun u => s.outputs <+: u.outputs) (fun _ _ hu => hu)
      (fun _ _ hu he => hu.trans he.outputs_prefix) List.prefix_rfl h
  have hr : s.refusals <+: t.refusals :=
    step_keeps (P := fun u => s.refusals <+: u.refusals) (fun _ _ hu => hu)
      (fun _ _ hu he => hu.trans he.refusals_prefix) List.prefix_rfl h
  exact ⟨ho, hr, fun hs => t.refused_iff.2 (hr.ne_nil (s.refused_iff.1 hs))⟩

/-! ### The step, by what is pending -/

theorem step_of_pending_nil (h : s.pending = []) : step s = .next s := by
  simp [step, h]

theorem step_of_accept_error {iss : Issue} {rest : List Issue} {r : RefusalReason} (hp : s.pending = iss :: rest)
    (ha : accept iss = .error r) : step s = .next (State.refuse { s with pending := rest } r) := by
  simp [step, hp, ha]

/-- Settles O14: a step waits, records a refusal, or runs one instruction, and only the last can stop. -/
theorem onlyAnAccessOutsideTheBufferStops : Obligations.OnlyAnAccessOutsideTheBufferStops := by
  intro s
  cases hp : s.pending with
  | nil => exact .inl ⟨s, step_of_pending_nil hp⟩
  | cons iss rest =>
    cases ha : accept iss with
    | error r => exact .inl ⟨_, step_of_accept_error hp ha⟩
    | ok i =>
      rw [step_of_accept hp ha]
      exact exec_stops_only_outside i { s with pending := rest }

/-! ### Operations issued from callbacks or overlapping -/

theorem accept_insideCallback {w : Word} {p : Bytes} (h : decodeCommand w p = .ok i) :
    accept ⟨w, p, .insideCallback⟩ = .error .reentrant := by
  simp [accept, decode, h]

theorem accept_overlapping {w : Word} {p : Bytes} (h : decodeCommand w p = .ok i) :
    accept ⟨w, p, .overlapping⟩ = if i.isDecoderOp then .error .concurrent else .ok i := by
  simp [accept, decode, h]

/-- Settles O11: the word decodes, so the issue context decides whether the operation is accepted. -/
theorem overlapAndReentryAreRefused : Obligations.OverlapAndReentryAreRefused := by
  intro s w p rest i hd
  refine ⟨fun hp => ?_, fun hp hi => ?_, fun hp hi => ?_⟩
  · exact step_of_accept_error hp (accept_insideCallback hd)
  · exact step_of_accept_error hp (by simp [accept_overlapping hd, hi])
  · exact step_of_accept hp (by simp [accept_overlapping hd, hi])

end Sys2Proof.Machine
end

/-! PROOFS. The encoding family (30_encoding.md R60 to R72): decoding and encoding are inverse in both formats, words are
decoded or refused line by line, a feed runs its input class, and stuffing keeps the wire frame transparent. -/

section
namespace Sys2Proof.Machine

variable {s t : State} {w : Word} {p : Bytes} {i : Instr} {b x : Byte}

/-! ### The input classes (R62) -/

theorem classify_boundaryAfterEscape : classify true Config.boundary = .boundaryAfterEscape := rfl

theorem classify_boundary : classify false Config.boundary = .boundary := rfl

theorem classify_escapedData (h : b ≠ Config.boundary) : classify true b = .escapedData b := by
  simp [classify, h]

theorem classify_escape : classify false Config.escape = .escape := rfl

theorem classify_data (h1 : b ≠ Config.boundary) (h2 : b ≠ Config.escape) : classify false b = .data b := by
  simp [classify, h1, h2]

/-- The class of a pair is a well-formed input class whose encoding is the pair: each test of R103 keeps what the class
says of flag and byte. -/
theorem encode_classify (esc : Bool) (b : Byte) : WellFormed (classify esc b) ∧ (classify esc b).isCommand = false ∧
    encode (classify esc b) = .decoderInput (inputValue (BitVec.ofBool esc) b) := by
  by_cases hb : b = Config.boundary
  · subst hb
    cases esc <;> exact ⟨rfl, rfl, rfl⟩
  · cases esc with
    | true =>
      rw [classify_escapedData hb]
      exact ⟨decide_eq_true hb, rfl, rfl⟩
    | false =>
      by_cases he : b = Config.escape
      · subst he
        exact ⟨rfl, rfl, rfl⟩
      · rw [classify_data hb he]
        exact ⟨by simp [WellFormed, Instr.wellFormed, hb, he], rfl, rfl⟩

theorem decode_inputValue_ofBool (esc : Bool) (b : Byte) :
    decode (.decoderInput (inputValue (BitVec.ofBool esc) b)) = .ok (classify esc b) := by
  obtain ⟨htrue, hfalse⟩ := decode_inputValue b
  cases esc
  · exact hfalse
  · exact htrue

/-- A 9-bit input is put together again from its flag and its byte. -/
theorem inputValue_fields (v : BitVec 9) : inputValue (BitVec.ofBool (v.getLsbD 8)) (v.extractLsb' 0 8) = v := by
  have hflag : BitVec.ofBool (v.getLsbD 8) = v.extractLsb' (0 + 8) 1 := by
    ext k hk
    obtain rfl : k = 0 := by omega
    simp
  unfold inputValue
  rw [hflag, extract_append_extract v 0 8 1]
  exact extract_all v

/-! ### The decode function, by opcode (R67) -/

theorem decodeCommand_of_op_decInit (h : Field.op w = 0x1#4) : decodeCommand w p =
    if Field.zeroAbove16 w ≠ 0 then .error .reservedBits
    else if Field.low16 w = 0 then .error .badCapacity else .ok (.decInit (Field.low16 w)) := by
  simp [decodeCommand, h]

theorem decodeCommand_of_op_decFeed (h : Field.op w = 0x2#4) : decodeCommand w p =
    if Field.zeroAbove8 w ≠ 0 then .error .reservedBits else .ok (.decFeed (Field.byte w)) := by
  simp [decodeCommand, h]

theorem decodeCommand_of_op_crcUpdate (h : Field.op w = 0x3#4) : decodeCommand w p =
    if Field.zeroAbove24 w ≠ 0 then .error .reservedBits
    else .ok (.crcUpdate (Field.run w) (Field.byte w)) := by
  simp [decodeCommand, h]

theorem decodeCommand_of_op_crcCompute (h : Field.op w = 0x4#4) : decodeCommand w p =
    if Field.zeroAbove16 w ≠ 0 then .error .reservedBits
    else if p.length ≠ (Field.low16 w).toNat then .error .lengthMismatch
    else .ok (.crcCompute (Field.low16 w) p) := by
  simp [decodeCommand, h]

theorem decodeCommand_of_op_encEncode (h : Field.op w = 0x5#4) : decodeCommand w p =
    if Field.zeroAbove16 w ≠ 0 then .error .reservedBits
    else if p.length ≠ (Field.low16 w).toNat then .error .lengthMismatch
    else .ok (.encEncode (Field.low16 w) p) := by
  simp [decodeCommand, h]

theorem decodeCommand_of_op_reserved (h : w.toNat / 2 ^ 28 = 0 ∨ 6 ≤ w.toNat / 2 ^ 28) :
    decodeCommand w p = .error .reservedOpcode := by
  have hop : ∀ k, 1 ≤ k → k ≤ 5 → Field.op w ≠ BitVec.ofNat 4 k := fun k h1 h5 => by
    rw [Ne, Field.op_eq_iff w k (by omega)]
    omega
  simp [decodeCommand, hop 1, hop 2, hop 3, hop 4, hop 5]

/-! ### Both formats, decoded after encoding -/

theorem decodeCommand_format16_decInit {cap : Half} (h : cap ≠ 0) (p : Bytes) :
    decodeCommand (format16 0x1 cap) p = .ok (.decInit cap) := by
  rw [decodeCommand_of_op_decInit (Field.op_format16 0x1 cap), if_neg (not_not.2 (Field.zeroAbove16_format16 _ _)),
    Field.low16_format16, if_neg h]

theorem decodeCommand_format16_decInit_zero (p : Bytes) :
    decodeCommand (format16 0x1 0) p = .error .badCapacity := rfl

theorem decodeCommand_format24_crcUpdate (run : Half) (b : Byte) (p : Bytes) :
    decodeCommand (format24 0x3 run b) p = .ok (.crcUpdate run b) := by
  simp [decodeCommand]

theorem decodeCommand_format16_crcCompute {n : Half} (h : p.length = n.toNat) :
    decodeCommand (format16 0x4 n) p = .ok (.crcCompute n p) := by
  simp [decodeCommand, h]

theorem decodeCommand_format16_encEncode {n : Half} (h : p.length = n.toNat) :
    decodeCommand (format16 0x5 n) p = .ok (.encEncode n p) := by
  simp [decodeCommand, h]

/-- Settles O1, by the instruction: a command is read back from the fields of its format, an input class from the flag
and the byte that select it. -/
theorem decodeOfEncodeIsTheInstruction : Obligations.DecodeOfEncodeIsTheInstruction := by
  intro i hi
  cases i with
  | decInit cap => exact decodeCommand_format16_decInit (of_decide_eq_true hi) []
  | decFeed b => exact decodeCommand_format8_decFeed b []
  | crcUpdate run b => exact decodeCommand_format24_crcUpdate run b []
  | crcCompute n p => exact decodeCommand_format16_crcCompute (of_decide_eq_true hi)
  | encEncode n p => exact decodeCommand_format16_encEncode (of_decide_eq_true hi)
  | boundaryAfterEscape => exact decode_inputValue_ofBool true Config.boundary
  | boundary => exact decode_inputValue_ofBool false Config.boundary
  | escapedData b =>
    have hd := decode_inputValue_ofBool true b
    rwa [classify_escapedData (of_decide_eq_true hi)] at hd
  | escape => exact decode_inputValue_ofBool false Config.escape
  | data b =>
    obtain ⟨hb, he⟩ : b ≠ Config.boundary ∧ b ≠ Config.escape := by simpa [WellFormed, Instr.wellFormed] using hi
    have hd := decode_inputValue_ofBool false b
    rwa [classify_data hb he] at hd

/-! ### Words encoded after decoding -/

/-- The opcodes that take a data operand, `CRC_COMPUTE` and `ENC_ENCODE`, read as numbers and as fields. -/
theorem takesOperand_iff (w : Word) :
    (w.toNat / 2 ^ 28 = 4 ∨ w.toNat / 2 ^ 28 = 5) ↔ Field.op w = 0x4#4 ∨ Field.op w = 0x5#4 := by
  rw [Field.op_eq_iff w 4 (by decide), Field.op_eq_iff w 5 (by decide)]

/-- A command that decodes is well formed, and its encoding is the word with the operand that its opcode takes. -/
theorem encode_of_decodeCommand (h : decodeCommand w p = .ok i) : WellFormed i ∧ i.isCommand = true ∧
    encode i = .command w (if Field.op w = 0x4#4 ∨ Field.op w = 0x5#4 then p else []) := by
  obtain ⟨hop, hz, hc, rfl⟩ | ⟨hop, hz, rfl⟩ | ⟨hop, hz, rfl⟩ | ⟨hop, hz, hn, rfl⟩ | ⟨hop, hz, hn, rfl⟩ :=
    decodeCommand_eq_ok h
  · have hw := hop ▸ word_of_format16 w hz
    exact ⟨decide_eq_true hc, rfl, by simp [encode, hw, hop]⟩
  · have hw := hop ▸ word_of_format8 w hz
    exact ⟨rfl, rfl, by simp [encode, hw, hop]⟩
  · have hw := hop ▸ word_of_format24 w hz
    exact ⟨rfl, rfl, by simp [encode, hw, hop]⟩
  · have hw := hop ▸ word_of_format16 w hz
    exact ⟨decide_eq_true hn, rfl, by simp [encode, hw, hop]⟩
  · have hw := hop ▸ word_of_format16 w hz
    exact ⟨decide_eq_true hn, rfl, by simp [encode, hw, hop]⟩

/-- Settles O2: a command word and a 9-bit input are each put together again from the fields that were decoded. -/
theorem encodeOfDecodeIsTheWords : Obligations.EncodeOfDecodeIsTheWords := by
  refine ⟨fun w p i h => ?_, fun v => ⟨_, rfl, ?_⟩⟩
  · simp only [takesOperand_iff]
    exact encode_of_decodeCommand h
  · obtain ⟨hwf, hclass, henc⟩ := encode_classify (v.getLsbD 8) (v.extractLsb' 0 8)
    exact ⟨hwf, hclass, henc.trans (congrArg Encoded.decoderInput (inputValue_fields v))⟩

/-! ### The decode function, line by line (R67) -/

/-- Settles O3: the opcode selects the format, and the fields of the format, as numbers, decide the rest. -/
theorem commandWordDecodesByFormat : Obligations.CommandWordDecodesByFormat := by
  intro w p
  simp only [← Field.op_eq_iff w 1 (by decide), ← Field.op_eq_iff w 2 (by decide), ← Field.op_eq_iff w 3 (by decide),
    ← Field.op_eq_iff w 4 (by decide), ← Field.op_eq_iff w 5 (by decide), ← Field.zeroAbove16_eq_zero,
    ← Field.zeroAbove8_eq_zero, ← Field.zeroAbove24_eq_zero, ← Field.byte_eq_ofNat, ← Field.run_eq_ofNat,
    ← Field.low16_toNat, BitVec.ofNat_toNat, BitVec.setWidth_eq, Ne]
  refine ⟨fun h hz hc => ?_, fun h hz hc => ?_, fun h hz => ?_, fun h hz => ?_, fun h hz hn => ?_, fun h hz hn => ?_,
    fun h hz hn => ?_, fun h hz hn => ?_, fun h hz => ?_, fun h hz => ?_, fun h hz => ?_, decodeCommand_of_op_reserved⟩
  · rw [decodeCommand_of_op_decInit h, if_neg (not_not.2 hz), if_pos (BitVec.eq_of_toNat_eq hc)]
  · rw [decodeCommand_of_op_decInit h, if_neg (not_not.2 hz), if_neg (mt (congrArg BitVec.toNat) hc)]
  · rw [decodeCommand_of_op_decFeed h, if_neg (not_not.2 hz)]
  · rw [decodeCommand_of_op_crcUpdate h, if_neg (not_not.2 hz)]
  · rw [decodeCommand_of_op_crcCompute h, if_neg (not_not.2 hz), if_pos hn]
  · rw [decodeCommand_of_op_crcCompute h, if_neg (not_not.2 hz), if_neg (not_not.2 hn)]
  · rw [decodeCommand_of_op_encEncode h, if_neg (not_not.2 hz), if_pos hn]
  · rw [decodeCommand_of_op_encEncode h, if_neg (not_not.2 hz), if_neg (not_not.2 hn)]
  · obtain h | h | h := h
    · rw [decodeCommand_of_op_decInit h, if_pos hz]
    · rw [decodeCommand_of_op_crcCompute h, if_pos hz]
    · rw [decodeCommand_of_op_encEncode h, if_pos hz]
  · rw [decodeCommand_of_op_decFeed h, if_pos hz]
  · rw [decodeCommand_of_op_crcUpdate h, if_pos hz]

/-- Settles O4: the words are literals, so the decoder evaluates them. -/
theorem sampleEncodingsDecode : Obligations.SampleEncodingsDecode := by
  unfold Obligations.SampleEncodingsDecode
  decide

/-! ### Refused words -/

/-- The reasons of decode come first, whatever the issue context. -/
theorem accept_of_decodeCommand_error {r : RefusalReason} (h : decodeCommand w p = .error r) (c : IssueContext) :
    accept ⟨w, p, c⟩ = .error r := by
  simp [accept, decode, h]

/-- Settles O10: each line of R67 that refuses gives the reason, and the step records it. -/
theorem reservedWordsAreRefused : Obligations.ReservedWordsAreRefused := by
  intro s w p c rest hp
  have hstep (r : RefusalReason) (h : decodeCommand w p = .error r) :
      step s = .next { s with pending := rest, refusals := s.refusals ++ [r] } :=
    step_of_accept_error hp (accept_of_decodeCommand_error h c)
  obtain ⟨hcap, -, -, -, hcrc, -, henc, -, hz16, hz8, hz24, hop⟩ := commandWordDecodesByFormat w p
  refine ⟨hstep, fun h hz h0 => hstep _ (hcap h hz h0), fun h hz hn => hstep _ ?_, fun h => hstep _ (hop h),
    fun h hz => hstep _ (hz16 h hz), fun h hz => hstep _ (hz8 h hz), fun h hz => hstep _ (hz24 h hz)⟩
  obtain h | h := h
  · exact hcrc h hz hn
  · exact henc h hz hn

/-! ### The words of the assembler (R71, R72) -/

theorem append_zero_or {m n : Nat} (a : BitVec m) (x : BitVec n) : (a ++ 0#n) ||| x.setWidth (m + n) = a ++ x := by
  rw [BitVec.append_def, BitVec.append_def, BitVec.setWidth'_eq, BitVec.setWidth'_eq, BitVec.setWidth_zero,
    BitVec.or_zero]

/-- The 16-bit field enters its format as the assembler writes it, by OR. -/
theorem format16_zero_or (op : BitVec 4) (x : Half) : format16 op 0 ||| x.setWidth 32 = format16 op x :=
  append_zero_or (op ++ 0x000#12) x

theorem crcUpdateWord_eq_format24 (run : Half) (b : Byte) :
    0x30000000#32 ||| (run.setWidth 32 <<< 8) ||| b.setWidth 32 = format24 0x3 run b := by
  rw [format24, BitVec.append_def, BitVec.append_def, BitVec.shiftLeftZeroExtend_eq, BitVec.setWidth_or,
    BitVec.shiftLeft_or_distrib]
  rfl

theorem ofNat_length_eq_setWidth (h : p.length < 2 ^ 16) :
    BitVec.ofNat 32 p.length = (BitVec.ofNat 16 p.length).setWidth 32 := by
  apply BitVec.eq_of_toNat_eq
  simp only [BitVec.toNat_ofNat, BitVec.toNat_setWidth]
  omega

theorem length_eq_ofNat_toNat (h : p.length < 2 ^ 16) : p.length = (BitVec.ofNat 16 p.length).toNat :=
  (Nat.mod_eq_of_lt h).symm

/-- Settles O5: each word is the format of its operation, and pseudo-instructions are lists of feeds. -/
theorem assembledLinesDecode : Obligations.AssembledLinesDecode := by
  refine ⟨fun cap => ⟨_, rfl, ?_⟩, fun b => ⟨_, rfl, accept_feedIssue b⟩, fun run b => ⟨_, rfl, accept_serial ?_⟩,
    fun p hp => ⟨_, rfl, accept_serial ?_⟩, fun p hp => ⟨_, rfl, accept_serial ?_⟩, fun w => ⟨_, rfl, rfl, rfl, ?_⟩,
    fun bs => ?_, ?_⟩
  · rw [show 0x10000000#32 ||| cap.setWidth 32 = format16 0x1 cap from format16_zero_or 0x1 cap]
    split
    · next h => exact h ▸ accept_of_decodeCommand_error (decodeCommand_format16_decInit_zero []) .serial
    · next h => exact accept_serial (decodeCommand_format16_decInit h [])
  · rw [crcUpdateWord_eq_format24, decodeCommand_format24_crcUpdate]
  · rw [ofNat_length_eq_setWidth hp]
    exact (congrArg (decodeCommand · p) (format16_zero_or 0x4 _)).trans
      (decodeCommand_format16_crcCompute (length_eq_ofNat_toNat hp))
  · rw [ofNat_length_eq_setWidth hp]
    exact (congrArg (decodeCommand · p) (format16_zero_or 0x5 _)).trans
      (decodeCommand_format16_encEncode (length_eq_ofNat_toNat hp))
  · cases h : decodeCommand w [] with
    | error r => exact accept_of_decodeCommand_error h .serial
    | ok i => exact accept_serial h
  · rw [AsmLine.issues, List.map_map]
    exact List.map_congr_left fun b _ => accept_feedIssue b
  · rfl

/-! ### The byte step, by its class (R103) -/

theorem exec_boundaryAfterEscape (s : State) : exec .boundaryAfterEscape s = onDecoder absorbEscape s := rfl

theorem exec_boundary (s : State) : exec .boundary s = onDecoder validateAndReset s := rfl

theorem exec_escapedData (b : Byte) (s : State) : exec (.escapedData b) s = onDecoder (storeUnescaped b) s := rfl

theorem exec_escape (s : State) : exec .escape s = onDecoder noteEscape s := rfl

theorem exec_data (b : Byte) (s : State) : exec (.data b) s = onDecoder (storeByte b) s := rfl

theorem onDecoder_congr {f g : State → Outcome} (h : f s = g s) : onDecoder f s = onDecoder g s := by
  simp [onDecoder, h]

/-- A feed runs the class of the pair of flag and byte. -/
theorem exec_decFeed (b : Byte) (s : State) : exec (.decFeed b) s = exec (classify s.esc b) s := by
  change execDecFeed b s = _
  unfold execDecFeed
  by_cases hb : b = Config.boundary
  · subst hb
    cases he : s.esc with
    | true =>
      rw [classify_boundaryAfterEscape, exec_boundaryAfterEscape]
      exact onDecoder_congr (by simp [he])
    | false =>
      rw [classify_boundary, exec_boundary]
      exact onDecoder_congr (by simp [he])
  · cases he : s.esc with
    | true =>
      rw [classify_escapedData hb, exec_escapedData]
      exact onDecoder_congr (by simp [hb, he])
    | false =>
      by_cases hx : b = Config.escape
      · subst hx
        rw [classify_escape, exec_escape]
        exact onDecoder_congr (by simp [hb, he])
      · rw [classify_data hb hx, exec_data]
        exact onDecoder_congr (by simp [hb, he, hx])

/-- Settles O7: the class decoded is the one of the flag and the byte fed. -/
theorem stepRunsTheInputClass : Obligations.StepRunsTheInputClass := by
  intro s w p rest b i hp hd hi
  obtain rfl : classify s.esc b = i := Except.ok.inj ((decode_inputValue_ofBool s.esc b).symm.trans hi)
  rw [step_of_accept hp (accept_serial hd)]
  exact exec_decFeed b { s with pending := rest }

/-- Settles O25: the five conditions are those by which `classify` selects the class. -/
theorem feedDoesWhatItsClassDoes : Obligations.FeedDoesWhatItsClassDoes := by
  intro b s
  simp only [exec_decFeed]
  refine ⟨fun hb he => ?_, fun hb he => ?_, fun hb he => ?_, fun hb he => ?_, fun hb hb' he => ?_⟩
  · subst hb
    rw [he, ← Config.boundary, classify_boundaryAfterEscape]
  · subst hb
    rw [he, ← Config.boundary, classify_boundary]
  · rw [he, classify_escapedData hb]
  · subst hb
    rw [he, ← Config.escape, classify_escape]
  · rw [he, classify_data hb hb']

/-! ### Every byte has a step on a ready decoder (R68) -/

/-- The outcome goes on to a ready decoder, with capacity, refusals and pending operations as they were. -/
def StaysReady (s : State) (o : Outcome) : Prop :=
  ∃ t, o = .next t ∧ Ready t ∧ t.cap = s.cap ∧ t.refusals = s.refusals ∧ t.pending = s.pending

theorem Ready.zero_lt_cap (h : Ready s) : (0 : Half).toNat < s.cap.toNat := Nat.zero_lt_of_lt h.position

theorem Stores.ready (h : Stores b s t) (hs : Ready s) : Ready t where
  constructed := h.initialised.trans hs.constructed
  position := by
    have := hs.position
    rw [h.position, h.cap]
    split <;> omega

theorem absorbEscape_staysReady (h : Ready s) : StaysReady s (absorbEscape s) :=
  ⟨_, rfl, ⟨h.constructed, h.zero_lt_cap⟩, rfl, rfl, rfl⟩

theorem noteEscape_staysReady (h : Ready s) : StaysReady s (noteEscape s) :=
  ⟨_, rfl, ⟨h.constructed, h.position⟩, rfl, rfl, rfl⟩

theorem validateAndReset_staysReady (h : Ready s) : StaysReady s (validateAndReset s) := by
  have hrun : exec .boundary s = validateAndReset s := onDecoder_constructed h.constructed
  obtain ⟨t, ht⟩ | ⟨k, -, -, hcap, hwp⟩ := exec_stops_only_outside .boundary s
  · rw [hrun] at ht
    rw [ht]
    obtain ⟨-, -, -, rfl⟩ | ⟨-, rfl⟩ := validateAndReset_eq_next.1 ht <;>
      exact ⟨_, rfl, ⟨h.constructed, h.zero_lt_cap⟩, rfl, rfl, rfl⟩
  · exact absurd h.position (Nat.not_lt.2 (hcap.trans hwp))

theorem storeByte_staysReady (b : Byte) (h : Ready s) : StaysReady s (storeByte b s) := by
  obtain ⟨t, ht, hst, -, -, -⟩ := storeByte_stores (b := b) h.position
  exact ⟨t, ht, hst.ready h, hst.cap, hst.refusals, hst.pending⟩

theorem storeUnescaped_staysReady (b : Byte) (h : Ready s) : StaysReady s (storeUnescaped b s) :=
  storeByte_staysReady (s := s.clearEscape) (unescape b) ⟨h.constructed, h.position⟩

/-- Settles O26, by the class of the byte: each path goes on inside the buffer and resets or advances the position. -/
theorem everyByteCanBeFed : Obligations.EveryByteCanBeFed := by
  intro b s h
  show StaysReady s (exec (.decFeed b) s)
  simp only [exec, execDecFeed, onDecoder_constructed h.constructed]
  split
  · split
    · exact absorbEscape_staysReady h
    · exact validateAndReset_staysReady h
  · split
    · exact storeUnescaped_staysReady b h
    · split
      · exact noteEscape_staysReady h
      · exact storeByte_staysReady b h

/-! ### Stuffing (R61) -/

/-- Settles O52: the two reserved octets are literals, and every other byte is stuffed plain. -/
theorem stuffingReplacesTheReservedOctets : Obligations.StuffingReplacesTheReservedOctets :=
  ⟨rfl, rfl, fun _ => stuff_plain⟩

theorem exec_decFeed_escape (hi : s.initialised = true) (he : s.esc = false) :
    exec (.decFeed Config.escape) s = .next s.setEscape := by
  rw [exec_decFeed, he]
  exact onDecoder_constructed hi

theorem exec_decFeed_escaped (hi : s.initialised = true) (he : s.esc = true) (hb : b ≠ Config.boundary) :
    exec (.decFeed b) s = storeByte (unescape b) s.clearEscape := by
  rw [exec_decFeed, he, classify_escapedData hb]
  exact onDecoder_constructed hi

theorem exec_decFeed_plain (hi : s.initialised = true) (he : s.esc = false) (h1 : b ≠ Config.boundary)
    (h2 : b ≠ Config.escape) : exec (.decFeed b) s = storeByte b s := by
  rw [exec_decFeed, he, classify_data h1 h2]
  exact onDecoder_constructed hi

theorem State.clearEscape_setEscape (h : s.esc = false) : s.setEscape.clearEscape = s :=
  congrArg (fun e => { s with esc := e }) h.symm

theorem feedAll_singleton (b : Byte) (s : State) : feedAll [b] s = exec (.decFeed b) s := by
  cases h : exec (.decFeed b) s <;> simp [feedAll, h]

/-- The stuffed form of a byte, fed with no escape pending, is one store of that byte: the flag that the escape octet sets
is cleared again by the byte after it, which is no boundary octet. -/
theorem feedAll_stuff (x : Byte) (hi : s.initialised = true) (he : s.esc = false) :
    feedAll (stuff x) s = storeByte x s := by
  by_cases hx : x = Config.boundary ∨ x = Config.escape
  · have hne : unescape x ≠ Config.boundary := by
      obtain rfl | rfl := hx <;> decide
    calc feedAll (stuff x) s = feedAll [unescape x] s.setEscape := by
          simp only [stuff_reserved hx, feedAll, exec_decFeed_escape hi he]
      _ = storeByte (unescape (unescape x)) s.setEscape.clearEscape := by
          rw [feedAll_singleton, exec_decFeed_escaped (s := s.setEscape) hi rfl hne]
      _ = storeByte x s := by rw [unescape_unescape, State.clearEscape_setEscape he]
  · obtain ⟨h1, h2⟩ := not_or.1 hx
    rw [stuff_plain h1 h2, feedAll_singleton, exec_decFeed_plain hi he h1 h2]

/-- Settles O34: the stuffed form is one store, inside the buffer of a ready decoder. -/
theorem stuffedByteIsStoredUnstuffed : Obligations.StuffedByteIsStoredUnstuffed := by
  intro x s hs he
  obtain ⟨t, ht, hst, hesc, -, -⟩ := storeByte_stores (b := x) hs.position
  exact ⟨t, (feedAll_stuff x hs.constructed he).trans ht, hesc.trans he, hst⟩

/-! ### The wire frame: its length (R146) -/

/-- A frame on the wire is the stuffed payload and trailer between two boundary octets. -/
theorem wireFrame_eq (p : Bytes) :
    wireFrame p = Config.boundary :: ((p ++ trailerBytes (crcCompute p)).flatMap stuff ++ [Config.boundary]) := by
  simp [wireFrame]

theorem length_stuff (x : Byte) : (stuff x).length = 1 + reservedCount [x] := by
  by_cases hx : x = Config.boundary ∨ x = Config.escape
  · obtain rfl | rfl := hx <;> rfl
  · obtain ⟨h1, h2⟩ : x ≠ 0x7E#8 ∧ x ≠ 0x7D#8 := not_or.1 hx
    simp [stuff_plain h1 h2, reservedCount, h1, h2]

theorem reservedCount_cons (x : Byte) (l : Bytes) : reservedCount (x :: l) = reservedCount [x] + reservedCount l :=
  List.countP_append (l₁ := [x])

/-- Stuffing adds one byte for each reserved octet. -/
theorem length_flatMap_stuff (l : Bytes) : (l.flatMap stuff).length = l.length + reservedCount l := by
  induction l with
  | nil => rfl
  | cons x l ih =>
    rw [List.flatMap_cons, List.length_append, length_stuff, ih, reservedCount_cons x l, List.length_cons]
    omega

theorem length_wireFrame (p : Bytes) :
    (wireFrame p).length = p.length + 4 + reservedCount (p ++ trailerBytes (crcCompute p)) := by
  simp only [wireFrame_eq, List.length_cons, List.length_append, length_flatMap_stuff, length_trailerBytes,
    List.length_nil]
  omega

/-- Settles O53: the bytes emitted are the wire frame, and at most every payload and trailer byte is reserved. -/
theorem encodedLengthIsCounted : Obligations.EncodedLengthIsCounted := by
  intro n p s hn
  have hle : reservedCount (p ++ trailerBytes (crcCompute p)) ≤ (p ++ trailerBytes (crcCompute p)).length :=
    List.countP_le_length
  have hlen : (s.emit ((wireFrame p).map .sinkByte)).sink.length
      = s.sink.length + n.toNat + 4 + reservedCount (p ++ trailerBytes (crcCompute p)) := by
    rw [State.emit_sinkBytes_sink, List.length_append, length_wireFrame, hn]
    omega
  rw [List.length_append, length_trailerBytes, hn] at hle
  refine ⟨_, exec_encEncode_of_length hn s, hlen, ?_, ?_⟩ <;> omega

/-! ### The wire frame: its transparency (R147) -/

theorem boundary_not_mem_stuff (x : Byte) : Config.boundary ∉ stuff x := by
  by_cases hx : x = Config.boundary ∨ x = Config.escape
  · obtain rfl | rfl := hx <;> decide
  · obtain ⟨h1, h2⟩ := not_or.1 hx
    simpa [stuff_plain h1 h2] using Ne.symm h1

theorem count_boundary_wireFrame (p : Bytes) : (wireFrame p).count Config.boundary = 2 := by
  have hnone : ((p ++ trailerBytes (crcCompute p)).flatMap stuff).count Config.boundary = 0 := by
    simp [List.count_eq_zero, boundary_not_mem_stuff]
  rw [wireFrame_eq, List.count_cons_self, List.count_append, hnone]
  rfl

/-- Every escape octet is followed by 0x5E or 0x5D. -/
def EscapesArePrefixes (w : Bytes) : Prop :=
  ∀ k : Nat, w[k]? = some 0x7D#8 → w[k + 1]? = some 0x5E#8 ∨ w[k + 1]? = some 0x5D#8

theorem EscapesArePrefixes.cons_plain {w : Bytes} (hw : EscapesArePrefixes w) (hx : x ≠ Config.escape) :
    EscapesArePrefixes (x :: w)
  | 0, hk => absurd (Option.some.inj hk) hx
  | k + 1, hk => hw k hk

theorem EscapesArePrefixes.cons_escape {w : Bytes} (hw : EscapesArePrefixes (x :: w)) (hx : x = 0x5E#8 ∨ x = 0x5D#8) :
    EscapesArePrefixes (Config.escape :: x :: w)
  | 0, _ => hx.imp (congrArg some) (congrArg some)
  | k + 1, hk => hw k hk

theorem EscapesArePrefixes.stuff_append {w : Bytes} (hw : EscapesArePrefixes w) (x : Byte) :
    EscapesArePrefixes (stuff x ++ w) := by
  by_cases hx : x = Config.boundary ∨ x = Config.escape
  · rw [stuff_reserved hx]
    obtain rfl | rfl := hx
    · exact (hw.cons_plain (by decide)).cons_escape (.inl rfl)
    · exact (hw.cons_plain (by decide)).cons_escape (.inr rfl)
  · obtain ⟨h1, h2⟩ := not_or.1 hx
    rw [stuff_plain h1 h2]
    exact hw.cons_plain h2

theorem EscapesArePrefixes.flatMap_stuff_append {w : Bytes} (hw : EscapesArePrefixes w) (l : Bytes) :
    EscapesArePrefixes (l.flatMap stuff ++ w) := by
  induction l with
  | nil => exact hw
  | cons x l ih =>
    rw [List.flatMap_cons, List.append_assoc]
    exact ih.stuff_append x

theorem wireFrame_escapesArePrefixes (p : Bytes) : EscapesArePrefixes (wireFrame p) := by
  have hnil : EscapesArePrefixes [] := fun _ hk => nomatch hk
  have hboundary : Config.boundary ≠ Config.escape := by decide
  rw [wireFrame_eq]
  exact ((hnil.cons_plain hboundary).flatMap_stuff_append _).cons_plain hboundary

/-- Settles O54: the bytes emitted are the wire frame, whose stuffed part holds no boundary octet. -/
theorem encodedFrameIsTransparent : Obligations.EncodedFrameIsTransparent :=
  fun _ p s hn => ⟨_, wireFrame p, exec_encEncode_of_length hn s, s.emit_sinkBytes_sink _, count_boundary_wireFrame p,
    rfl, List.getLast?_concat, wireFrame_escapesArePrefixes p⟩

end Sys2Proof.Machine
end

/-! PROOFS. The CRC engine family (40_crc_engine.md R80 to R86): the checksum update is linear and is eight steps of a long
division by the generator, streaming gives the batch checksum, and a frame with its own checksum is accepted. -/

section
namespace Sys2Proof.Machine

variable {s : State} {l : Bytes} {a b : Byte}

/-! ### The checksum update is linear (R81) -/

theorem crcUpdate_xor (c1 c2 : Half) (b1 b2 : Byte) :
    crcUpdate (c1 ^^^ c2) (b1 ^^^ b2) = crcUpdate c1 b1 ^^^ crcUpdate c2 b2 := by
  have hentry : c1 ^^^ c2 ^^^ ((b1 ^^^ b2).setWidth 16 <<< 8)
      = (c1 ^^^ (b1.setWidth 16 <<< 8)) ^^^ (c2 ^^^ (b2.setWidth 16 <<< 8)) := by
    rw [BitVec.setWidth_xor, BitVec.shiftLeft_xor_distrib]
    ac_rfl
  rw [crcUpdate, hentry, crcShifts_xor]
  rfl

/-- Settles O18: the byte enters by an exclusive or, and shifting is linear. -/
theorem checksumUpdateIsLinear : Obligations.ChecksumUpdateIsLinear := ⟨crcUpdate_xor, rfl⟩

/-! ### Shifting is division by the generator (R80)

After `k` shifts the register holds the remainder of `c * x^k` by the generator `x^16 + x^12 + x^5 + 1`: the bits of
`c * x^k` below `x^16`, and the quotient's multiple of the generator. For at most eight shifts the quotient has a closed
form, so no loop is left. -/

/-- The multiple `q * (x^16 + x^12 + x^5 + 1)` of the generator, truncated to 16 bits. -/
def generatorMultiple (q : Half) : Half := (q <<< 12) ^^^ (q <<< 5) ^^^ q

/-- The quotient by the generator after `k` shifts, at most eight: the bits shifted out, and those that came back in at
`x^12` and were shifted out again. -/
def quotientAfter (c : Half) (k : Nat) : Half := (c >>> (16 - k)) ^^^ (c >>> (16 - k) >>> 4)

theorem generatorMultiple_xor (p q : Half) : generatorMultiple (p ^^^ q) = generatorMultiple p ^^^ generatorMultiple q := by
  simp only [generatorMultiple, BitVec.shiftLeft_xor_distrib]
  ac_rfl

theorem generatorMultiple_shiftLeft (q : Half) (k : Nat) : generatorMultiple (q <<< k) = generatorMultiple q <<< k := by
  simp only [generatorMultiple, BitVec.shiftLeft_xor_distrib, ← BitVec.shiftLeft_add, Nat.add_comm k]

/-- The bit shifted out is the quotient's next digit. -/
theorem crcShift_eq (c : Half) :
    crcShift c = c <<< 1 ^^^ generatorMultiple ((BitVec.ofBool (c.getLsbD 15)).setWidth 16) := by
  unfold crcShift
  cases c.getLsbD 15
  · simp [generatorMultiple]
  · rfl

theorem crcShifts_succ_eq_crcShift (k : Nat) (c : Half) : crcShifts (k + 1) c = crcShift (crcShifts k c) := by
  induction k generalizing c with
  | zero => rfl
  | succ k ih => exact ih (crcShift c)

/-- One more shift appends to the quotient bit 15 of the register. -/
theorem quotientAfter_succ {k : Nat} (c : Half) (hk : k < 8) : quotientAfter c (k + 1) = quotientAfter c k <<< 1
    ^^^ (BitVec.ofBool ((c <<< k ^^^ generatorMultiple (quotientAfter c k)).getLsbD 15)).setWidth 16 := by
  apply BitVec.eq_of_getLsbD_eq
  rintro (_ | i) hi
  · interval_cases k <;> simp [quotientAfter, generatorMultiple, BitVec.getLsbD_of_ge]
  · have hindex (j : Nat) : 15 - k + (j + 1) = 16 - k + j := by omega
    simp [quotientAfter, hi, hindex, ← Nat.add_assoc 4]

theorem crcShifts_eq_generatorMultiple (c : Half) {k : Nat} (hk : k ≤ 8) :
    crcShifts k c = c <<< k ^^^ generatorMultiple (quotientAfter c k) := by
  induction k with
  | zero => simp [crcShifts, quotientAfter, generatorMultiple, BitVec.ushiftRight_eq_zero]
  | succ k ih =>
    rw [crcShifts_succ_eq_crcShift, ih (by omega), crcShift_eq, quotientAfter_succ c hk, generatorMultiple_xor,
      generatorMultiple_shiftLeft, BitVec.shiftLeft_xor_distrib, BitVec.shiftLeft_add, BitVec.xor_assoc]

/-- A byte moved to the top of a half and back is the byte. -/
theorem setWidth_shiftLeft_ushiftRight (b : Byte) : ((b.setWidth 16 : Half) <<< 8) >>> 8 = b.setWidth 16 := by
  apply BitVec.eq_of_getLsbD_eq
  intro i hi
  by_cases h : 8 ≤ i
  · simp [BitVec.getLsbD_of_ge b i h]
  · simp [show 8 + i < 16 by omega, hi]

/-- Settles O17: after eight shifts the quotient is `y`, and the byte has left the register but for its multiple of the
generator. -/
theorem bitSerialChecksumIsByteParallel : Obligations.BitSerialChecksumIsByteParallel := by
  intro c b x y
  have hlow : (c ^^^ (b.setWidth 16 <<< 8)) <<< 8 = c <<< 8 := by
    rw [BitVec.shiftLeft_xor_distrib, ← BitVec.shiftLeft_add, BitVec.shiftLeft_eq_zero (x := b.setWidth 16) le_rfl,
      BitVec.xor_zero]
  have hquotient : quotientAfter (c ^^^ (b.setWidth 16 <<< 8)) 8 = y := by
    rw [quotientAfter, BitVec.ushiftRight_xor_distrib, setWidth_shiftLeft_ushiftRight]
  rw [crcUpdate, crcShifts_eq_generatorMultiple _ le_rfl, hlow, hquotient, generatorMultiple]
  simp only [BitVec.xor_assoc]

/-! ### The checksum of a list (R82) and the streaming mode (R85) -/

theorem crcCompute_concat (l : Bytes) (b : Byte) : crcCompute (l ++ [b]) = crcUpdate (crcCompute l) b := by
  simp [crcCompute_eq_foldl]

/-- Settles O19: the checksum is a left fold, so the last byte enters last. -/
theorem checksumOfAListIsByRecurrence : Obligations.ChecksumOfAListIsByRecurrence := ⟨crcCompute_nil, crcCompute_concat⟩

/-- The result fed back is the one just put out. -/
theorem streamCrc_cons (b : Byte) (l : Bytes) (run : Half) (s : State) :
    streamCrc (b :: l) run s = streamCrc l (crcUpdate run b) (s.emit [.result (crcUpdate run b)]) := by
  have hresults := (s.emit_result_views (crcUpdate run b)).1
  simp [streamCrc, exec_crcUpdate, hresults]

/-- Streaming from any running value folds the update over the list, and puts out one result per byte. -/
theorem streamCrc_eq_foldl (l : Bytes) (run : Half) (s : State) : ∃ t, streamCrc l run s
    = some (l.foldl crcUpdate run, t) ∧ t.results.length = s.results.length + l.length := by
  induction l generalizing run s with
  | nil => exact ⟨s, rfl, rfl⟩
  | cons b l ih =>
    obtain ⟨t, hstream, hcount⟩ := ih (crcUpdate run b) (s.emit [.result (crcUpdate run b)])
    refine ⟨t, by rw [streamCrc_cons, hstream, List.foldl_cons], ?_⟩
    rw [hcount, (s.emit_result_views _).1, List.length_append, List.length_singleton, List.length_cons]
    omega

/-- Settles O20: both modes are the fold of the update from 0xFFFF. -/
theorem streamingChecksumEqualsBatch : Obligations.StreamingChecksumEqualsBatch := by
  refine fun l s => ⟨?_, fun n hn => ⟨_, exec_crcCompute_of_length hn s, ?_⟩⟩
  · rw [crcCompute_eq_foldl]
    exact streamCrc_eq_foldl l _ s
  · rw [(s.emit_result_views _).1, List.getLast?_concat]

/-! ### A payload and two trailer bytes held by the decoder (R106) -/

theorem State.bufPrefix_eq_append_pair (h : s.bufPrefix (l.length + 2) = l ++ [a, b]) :
    s.bufPrefix l.length = l ∧ s.bufAt l.length = a ∧ s.bufAt (l.length + 1) = b := by
  rw [State.bufPrefix_succ, State.bufPrefix_succ, List.append_assoc] at h
  simpa using List.append_inj h (s.length_bufPrefix _)

/-- The decoder's check compares the checksum of the payload held with the trailer held. -/
theorem State.trailerMatches_of_bufPrefix (hwp : s.wp.toNat = l.length + 2) (h : s.bufPrefix s.wp.toNat = l ++ [a, b]) :
    s.trailerMatches = decide (crcCompute l = join a b) := by
  rw [hwp] at h
  obtain ⟨hpayload, hhigh, hlow⟩ := State.bufPrefix_eq_append_pair h
  simp [State.trailerMatches, Config.trailerLength, hwp, hpayload, hhigh, hlow]

/-- Settles O21: the two bytes of a checksum join to the checksum (R86). -/
theorem frameWithItsChecksumIsAccepted : Obligations.FrameWithItsChecksumIsAccepted :=
  fun _ _ hwp h => by simp [State.trailerMatches_of_bufPrefix hwp h]

end Sys2Proof.Machine
end

/-! PROOFS. The frame decoder family (41_frame_decoder.md R100 to R119): what a boundary octet leaves, what a stored byte
leaves, the invariant of reachable states, the rejection of a frame with a flipped bit, and the round trip from the
encoder. -/

section
namespace Sys2Proof.Machine

variable {s t : State} {a b x y : Byte} {c d : Half} {l p : Bytes}

/-! ### The bytes held and their trailer (R106) -/

/-- The check of R106 with the trailer as a number, high byte first. -/
theorem State.trailerMatches_iff (s : State) : s.trailerMatches = true ↔
    (crcCompute (s.bufPrefix (s.wp.toNat - 2))).toNat
      = (s.bufAt (s.wp.toNat - 1)).toNat + 256 * (s.bufAt (s.wp.toNat - 2)).toNat := by
  rw [State.trailerMatches, decide_eq_true_iff, BitVec.toNat_eq, join_toNat, Nat.add_comm]
  rfl

/-- With two bytes or more held, the bytes held are the payload and the two bytes of the trailer. -/
theorem State.bufPrefix_wp (h2 : 2 ≤ s.wp.toNat) : s.bufPrefix s.wp.toNat
    = s.bufPrefix (s.wp.toNat - 2) ++ [s.bufAt (s.wp.toNat - 2), s.bufAt (s.wp.toNat - 1)] := by
  obtain ⟨n, hn⟩ := Nat.exists_eq_add_of_le' h2
  simp [hn, State.bufPrefix_succ]

theorem trailerBytes_join (a b : Byte) : trailerBytes (join a b) = [a, b] := by
  obtain ⟨hhigh, hlow⟩ := join_inj.1 (join_hi8_lo8 (join a b))
  rw [trailerBytes, hhigh, hlow]

theorem State.payloadLength_frameHeld (h2 : 2 ≤ s.wp.toNat) : s.frameHeld.payloadLength.toNat = s.wp.toNat - 2 :=
  BitVec.toNat_sub_of_le (y := 2#16) h2

theorem State.frameHeld_eq (h2 : 2 ≤ s.wp.toNat) :
    s.frameHeld = ⟨s.bufPrefix s.wp.toNat, s.wp, BitVec.ofNat 16 (s.wp.toNat - 2)⟩ := by
  rw [← s.payloadLength_frameHeld h2, BitVec.ofNat_toNat, BitVec.setWidth_eq]
  rfl

/-- The frame record of bytes that pass the check is valid (R101). -/
theorem State.frameHeld_valid (h2 : 2 ≤ s.wp.toNat) (hm : s.trailerMatches = true) : s.frameHeld.Valid := by
  have hlength := s.payloadLength_frameHeld h2
  have hpayload : s.frameHeld.payload = s.bufPrefix (s.wp.toNat - 2) := by
    rw [Frame.payload, hlength, State.frameHeld, State.bufPrefix_wp h2]
    exact List.take_left' (s.length_bufPrefix _)
  have htrailer : crcCompute (s.bufPrefix (s.wp.toNat - 2))
      = join (s.bufAt (s.wp.toNat - 2)) (s.bufAt (s.wp.toNat - 1)) := of_decide_eq_true hm
  refine ⟨⟨s.length_bufPrefix _, h2, hlength⟩, ?_⟩
  rw [hpayload, htrailer, trailerBytes_join]
  exact State.bufPrefix_wp h2

/-! ### The invariant of reachable states -/

namespace StateInv

theorem setPending (h : StateInv s) (q : List Issue) : StateInv { s with pending := q } := { h with }

theorem refuse (h : StateInv s) (r : RefusalReason) : StateInv (s.refuse r) := { h with }

theorem setEscape (h : StateInv s) : StateInv s.setEscape := { h with }

theorem clearEscape (h : StateInv s) : StateInv s.clearEscape := { h with }

theorem emit {es : List Event} (h : StateInv s) (hes : ∀ f, .frame f ∈ es → f.Valid) : StateInv (s.emit es) :=
  { h with
    framesValid := by
      intro f hf
      rw [State.emit_frames] at hf
      obtain hf | hf := List.mem_append.1 hf
      · exact h.framesValid f hf
      · match List.mem_filterMap.1 hf with
        | ⟨.frame _, he, rfl⟩ => exact hes _ he }

theorem resetPosition (h : StateInv s) : StateInv s.resetPosition :=
  { h with
    positionBound := fun hi => Nat.zero_lt_of_lt (h.positionBound hi)
    written := fun _ hi => absurd hi (Nat.not_lt_zero _)
    running := crcCompute_nil.symm }

/-- Construction lists no byte, holds none, and has the running checksum of none (R32). -/
theorem construct (h : StateInv s) (hc : c ≠ 0) :
    StateInv { s.drawBuffer.resetPosition.clearEscape with cap := c, initialised := true } where
  canonical := s.drawBuffer_wf
  insideCapacity _ hmem := nomatch hmem
  positionBound _ := Nat.pos_of_ne_zero fun h0 => hc (BitVec.eq_of_toNat_eq h0)
  written _ hi := absurd hi (Nat.not_lt_zero _)
  running := crcCompute_nil.symm
  framesValid := h.framesValid

/-- A store adds the byte two positions back to the running checksum, which has then all bytes held but the last two. -/
theorem running_of_stores (h : StateInv s) (hst : Stores b s t) : t.rcrc = crcCompute (t.bufPrefix (t.wp.toNat - 2)) := by
  rw [hst.running, hst.position]
  split
  · exact crcCompute_nil.symm
  · have hprefix : t.bufPrefix (s.wp.toNat + 1 - 2) = s.bufPrefix (s.wp.toNat + 1 - 2) :=
      State.bufPrefix_congr fun i hi => hst.otherBytes i (by omega)
    rw [hprefix, h.running]
    split
    next h2 =>
      rw [show s.wp.toNat + 1 - 2 = s.wp.toNat - 2 + 1 by omega, State.bufPrefix_succ, crcCompute_concat]
    next h2 => rw [show s.wp.toNat + 1 - 2 = 0 by omega, show s.wp.toNat - 2 = 0 by omega]

theorem store (h : StateInv s) (hi : s.initialised = true) (ht : storeByte b s = .next t) : StateInv t := by
  have hpos := h.positionBound hi
  obtain ⟨_, ht', hst, -, -, hbuf⟩ := storeByte_stores (b := b) hpos
  obtain rfl := Host.Outcome.next.inj (ht'.symm.trans ht)
  refine ⟨?_, ?_, ?_, ?_, h.running_of_stores hst, ?_⟩
  · rw [hbuf]
    exact Memory.wf_write h.canonical _ _
  · intro c hc
    rw [hst.cap]
    obtain rfl | hc := Memory.mem_write _ _ _ _ (hbuf ▸ hc)
    · exact hpos
    · exact h.insideCapacity c hc
  · exact fun _ => (hst.ready ⟨hi, hpos⟩).position
  · intro i hlt
    rw [hbuf]
    by_cases hiw : i = s.wp.toNat
    · rw [hiw, Memory.read_write_same]
      rfl
    · rw [Memory.read_write_other _ _ hiw]
      rw [hst.position] at hlt
      exact h.written i (by split at hlt <;> omega)
  · rw [State.frames_congr _ _ hst.outputs]
    exact h.framesValid

end StateInv

theorem Effect.keeps_stateInv (h : StateInv s) (he : Effect s t) : StateInv t := by
  cases he with
  | refused r => exact h.refuse r
  | constructed cap hc => exact h.construct hc
  | result v => exact h.emit (by simp)
  | sent p => exact h.emit (by simp)
  | absorbed _ => exact h.clearEscape.resetPosition
  | delivered _ h2 _ hm => exact (h.emit (by simpa using s.frameHeld_valid h2 hm)).resetPosition
  | discarded _ => exact h.resetPosition
  | stored b _ hi ht => exact h.store hi ht
  | storedUnescaped b _ hi ht => exact h.clearEscape.store hi ht
  | escaped _ => exact h.setEscape

/-- Settles O42: the invariant names no pending operation, and every effect keeps it. -/
theorem everyStepKeepsTheInvariant : Obligations.EveryStepKeepsTheInvariant :=
  fun _ _ hs h => step_keeps (fun _ rest hs => hs.setPending rest) (fun _ _ hs he => he.keeps_stateInv hs) hs h

/-- Settles O47: under the invariant `rcrc` is the checksum that the validation recomputes (R115). -/
theorem runningChecksumIsTheRecomputation : Obligations.RunningChecksumIsTheRecomputation := by
  intro s h _
  rw [h.running]
  exact s.trailerMatches_iff

/-! ### What a boundary octet emits and leaves (R104 to R109) -/

/-- What a boundary octet emits: the frame held, when no escape is pending and two bytes or more pass the check. -/
def State.boundaryEvents (s : State) : List Event :=
  if s.esc = false ∧ 2 ≤ s.wp.toNat ∧ s.trailerMatches = true then [.frame s.frameHeld] else []

/-- The state a boundary octet leaves. -/
def State.afterBoundary (s : State) : State := (s.emit s.boundaryEvents).clearEscape.resetPosition

theorem State.boundaryEvents_of_match (he : s.esc = false) (h2 : 2 ≤ s.wp.toNat) (hm : s.trailerMatches = true) :
    s.boundaryEvents = [.frame s.frameHeld] := if_pos ⟨he, h2, hm⟩

theorem State.boundaryEvents_of_esc (he : s.esc = true) : s.boundaryEvents = [] :=
  if_neg fun h => by simp [he] at h

theorem State.boundaryEvents_of_no_match (h : ¬ (2 ≤ s.wp.toNat ∧ s.trailerMatches = true)) : s.boundaryEvents = [] :=
  if_neg fun h' => h h'.2

theorem State.boundaryEvents_of_wp_zero (h : s.wp = 0) : s.boundaryEvents = [] :=
  State.boundaryEvents_of_no_match (by simp [h])

theorem State.boundaryEvents_eq_nil_or (s : State) : s.boundaryEvents = [] ∨ s.boundaryEvents = [.frame s.frameHeld] := by
  unfold State.boundaryEvents
  split <;> simp

theorem State.boundaryEvents_eq_iff (f : Frame) : s.boundaryEvents = [.frame f] ↔
    f = s.frameHeld ∧ s.esc = false ∧ 2 ≤ s.wp.toNat ∧ s.trailerMatches = true := by
  unfold State.boundaryEvents
  split
  next h => simp only [h, and_self, and_true, List.cons.injEq, Event.frame.injEq, eq_comm]
  next h => exact iff_of_false (by simp) fun h' => h h'.2

@[simp] theorem State.emit_nil (s : State) : s.emit [] = s := by simp [State.emit]

theorem State.clearEscape_of_esc (he : s.esc = false) : s.clearEscape = s :=
  congrArg (fun e => { s with esc := e }) he.symm

theorem State.afterBoundary_of_boundaryEvents_nil (h : s.boundaryEvents = []) :
    s.afterBoundary = s.clearEscape.resetPosition := by
  rw [State.afterBoundary, h, State.emit_nil]

theorem State.afterBoundary_outputs (s : State) : s.afterBoundary.outputs = s.outputs ++ s.boundaryEvents := rfl

theorem State.afterBoundary_outputs_of_wp_zero (h : s.wp = 0) : s.afterBoundary.outputs = s.outputs := by
  rw [State.afterBoundary_outputs, State.boundaryEvents_of_wp_zero h, List.append_nil]

theorem State.afterBoundary_outputs_or (s : State) :
    s.afterBoundary.outputs = s.outputs ∨ ∃ f, s.afterBoundary.outputs = s.outputs ++ [.frame f] := by
  rw [State.afterBoundary_outputs]
  obtain hnil | hframe := s.boundaryEvents_eq_nil_or
  · exact .inl (by rw [hnil, List.append_nil])
  · exact .inr ⟨_, congrArg _ hframe⟩

theorem State.afterBoundary_of_match (he : s.esc = false) (h2 : 2 ≤ s.wp.toNat) (hm : s.trailerMatches = true) :
    s.afterBoundary = (s.emit [.frame s.frameHeld]).resetPosition := by
  rw [State.afterBoundary, State.boundaryEvents_of_match he h2 hm,
    State.clearEscape_of_esc (s := s.emit [.frame s.frameHeld]) he]

/-- A second boundary octet finds nothing held and leaves what the first one left (R119). -/
theorem State.afterBoundary_afterBoundary (s : State) : s.afterBoundary.afterBoundary = s.afterBoundary :=
  State.afterBoundary_of_boundaryEvents_nil (State.boundaryEvents_of_wp_zero (s := s.afterBoundary) rfl)

theorem absorbEscape_eq (he : s.esc = true) : absorbEscape s = .next s.afterBoundary := by
  rw [State.afterBoundary_of_boundaryEvents_nil (State.boundaryEvents_of_esc he), absorbEscape]

/-- The validation goes on when two bytes or more held are inside the buffer. -/
theorem validateAndReset_eq (he : s.esc = false) (hw : 2 ≤ s.wp.toNat → s.wp.toNat ≤ s.cap.toNat) :
    validateAndReset s = .next s.afterBoundary := by
  rw [validateAndReset_eq_next]
  by_cases h : 2 ≤ s.wp.toNat ∧ s.trailerMatches = true
  · obtain ⟨h2, hm⟩ := h
    exact .inl ⟨h2, hw h2, hm, State.afterBoundary_of_match he h2 hm⟩
  · refine .inr ⟨?_, ?_⟩
    · by_cases h2 : 2 ≤ s.wp.toNat
      · exact .inr ⟨hw h2, by simpa [h2] using h⟩
      · exact .inl (Nat.lt_of_not_le h2)
    · rw [State.afterBoundary_of_boundaryEvents_nil (State.boundaryEvents_of_no_match h), State.clearEscape_of_esc he]

theorem validateAndReset_next_bound (h : validateAndReset s = .next t) (h2 : 2 ≤ s.wp.toNat) :
    s.wp.toNat ≤ s.cap.toNat := by
  obtain ⟨-, hc, -⟩ | ⟨hlt | ⟨hc, -⟩, -⟩ := validateAndReset_eq_next.1 h
  · exact hc
  · omega
  · exact hc

theorem exec_decFeed_boundary_of_esc (hi : s.initialised = true) (he : s.esc = true) :
    exec (.decFeed Config.boundary) s = absorbEscape s := by
  rw [exec_decFeed, he]
  exact onDecoder_constructed hi

theorem exec_decFeed_boundary_of_not_esc (hi : s.initialised = true) (he : s.esc = false) :
    exec (.decFeed Config.boundary) s = validateAndReset s := by
  rw [exec_decFeed, he]
  exact onDecoder_constructed hi

/-- A boundary octet fed to a constructed decoder, whatever the flag. -/
theorem exec_decFeed_boundary (hi : s.initialised = true)
    (hw : s.esc = false → 2 ≤ s.wp.toNat → s.wp.toNat ≤ s.cap.toNat) :
    exec (.decFeed Config.boundary) s = .next s.afterBoundary := by
  cases he : s.esc with
  | true => rw [exec_decFeed_boundary_of_esc hi he, absorbEscape_eq he]
  | false => rw [exec_decFeed_boundary_of_not_esc hi he, validateAndReset_eq he (hw he)]

/-- A boundary octet has no other next state. -/
theorem eq_afterBoundary_of_exec (hi : s.initialised = true) (h : exec (.decFeed Config.boundary) s = .next t) :
    t = s.afterBoundary := by
  refine Host.Outcome.next.inj (h.symm.trans (exec_decFeed_boundary hi fun he => ?_))
  rw [exec_decFeed_boundary_of_not_esc hi he] at h
  exact validateAndReset_next_bound h

/-- The class BOUNDARY with no escape pending does what the feed does. -/
theorem exec_boundary_eq (hi : s.initialised = true) (he : s.esc = false)
    (hw : 2 ≤ s.wp.toNat → s.wp.toNat ≤ s.cap.toNat) : exec .boundary s = .next s.afterBoundary :=
  (onDecoder_constructed hi).trans (validateAndReset_eq he hw)

/-- Settles O27: with the flag set, nothing is validated and the flag is cleared before the reset. -/
theorem boundaryAfterEscapeIsAbsorbed : Obligations.BoundaryAfterEscapeIsAbsorbed :=
  fun _ hi he => ⟨onDecoder_constructed hi, exec_decFeed_boundary_of_esc hi he⟩

/-- Settles O28: the trailer as a number is the check, and the frame is the one held. -/
theorem boundaryDeliversAMatchingFrame : Obligations.BoundaryDeliversAMatchingFrame := by
  intro s hi he h2 hc hm
  refine ⟨_, exec_boundary_eq hi he fun _ => hc, exec_decFeed_boundary hi fun _ _ => hc, ?_⟩
  rw [State.afterBoundary_of_match he h2 (s.trailerMatches_iff.2 hm), s.frameHeld_eq h2]
  rfl

/-- Settles O29: without a match no frame is emitted, and the rest is the reset. -/
theorem boundaryDiscardsSilently : Obligations.BoundaryDiscardsSilently := by
  intro s hi he h
  have hw : 2 ≤ s.wp.toNat → s.wp.toNat ≤ s.cap.toNat := by omega
  have hnone : ¬ (2 ≤ s.wp.toNat ∧ s.trailerMatches = true) := by
    rw [s.trailerMatches_iff]
    omega
  have hafter : s.afterBoundary = s.resetPosition := by
    rw [State.afterBoundary_of_boundaryEvents_nil (State.boundaryEvents_of_no_match hnone), State.clearEscape_of_esc he]
  exact ⟨(exec_boundary_eq hi he hw).trans (congrArg _ hafter),
    (exec_decFeed_boundary hi fun _ => hw).trans (congrArg _ hafter)⟩

/-- Settles O30: emitting, clearing the flag and resetting the position write no byte of the buffer. -/
theorem boundaryAlwaysResets : Obligations.BoundaryAlwaysResets :=
  fun _ hi hc => ⟨_, exec_decFeed_boundary hi fun _ _ => hc, rfl, rfl, rfl, fun _ => rfl, rfl, hi, rfl, rfl⟩

/-- Settles O38: the second boundary octet finds an empty position. -/
theorem boundaryResynchronises : Obligations.BoundaryResynchronises := by
  intro s hi hc
  refine ⟨_, exec_decFeed_boundary hi fun _ _ => hc, rfl, rfl, rfl, ?_⟩
  have hsecond := exec_decFeed_boundary (s := s.afterBoundary) hi fun _ _ => Nat.zero_le _
  rwa [State.afterBoundary_afterBoundary] at hsecond

/-- A step on a pending feed of the boundary octet. -/
theorem step_boundaryFeed {rest : List Issue} (hi : s.initialised = true)
    (hw : 2 ≤ s.wp.toNat → s.wp.toNat ≤ s.cap.toNat) (hp : s.pending = serialIssue 0x2000007E#32 [] :: rest) :
    step s = .next (State.afterBoundary { s with pending := rest }) :=
  (step_of_accept hp (accept_feedIssue Config.boundary)).trans (exec_decFeed_boundary hi fun _ => hw)

/-- Settles O39: two steps feed two boundary octets, and the second emits nothing. -/
theorem decSyncResynchronises : Obligations.DecSyncResynchronises := by
  intro s rest hi hc hp
  refine ⟨_, _, step_boundaryFeed hi (fun _ => hc) hp, step_boundaryFeed (rest := rest) hi (fun _ => Nat.zero_le _) rfl,
    rfl, rfl, rfl, rfl, ?_, ?_⟩
  · exact State.afterBoundary_outputs_of_wp_zero rfl
  · exact State.afterBoundary_outputs_or { s with pending := serialIssue 0x2000007E#32 [] :: rest }

/-! ### Construction and the other classes of a feed (R100, R110 to R113) -/

/-- Settles O23: the fresh decoder lists no byte, so every byte reads as drawn. -/
theorem decInitLeavesAFreshDecoder : Obligations.DecInitLeavesAFreshDecoder :=
  fun _ s hc => ⟨_, exec_decInit_of_ne_zero hc s, rfl, rfl, rfl, rfl, rfl, fun _ => rfl, rfl, rfl, rfl⟩

/-- Settles O32: the class and the feed both set the flag and do nothing else. -/
theorem escapeOctetSetsTheFlag : Obligations.EscapeOctetSetsTheFlag :=
  fun _ hi he => ⟨onDecoder_constructed hi, exec_decFeed_escape hi he⟩

/-- What a store leaves does not depend on the flag before it. -/
theorem Stores.of_clearEscape (h : Stores b s.clearEscape t) : Stores b s t := { h with }

/-- Settles O31: the path clears the flag and stores the byte with bit 5 inverted. -/
theorem escapedByteIsStoredUnescaped : Obligations.EscapedByteIsStoredUnescaped := by
  intro b s hs he hb
  obtain ⟨t, ht, hst, hesc, -, -⟩ := storeByte_stores (s := s.clearEscape) (b := unescape b) hs.position
  exact ⟨t, (onDecoder_constructed hs.constructed).trans ht, (exec_decFeed_escaped hs.constructed he hb).trans ht, hesc,
    hst.of_clearEscape⟩

/-- Settles O33: the path is one store, inside the buffer of a ready decoder. -/
theorem dataByteIsStored : Obligations.DataByteIsStored := by
  intro b s hs he h1 h2
  obtain ⟨t, ht, hst, hesc, -, -⟩ := storeByte_stores (b := b) hs.position
  exact ⟨t, (onDecoder_constructed hs.constructed).trans ht, (exec_decFeed_plain hs.constructed he h1 h2).trans ht,
    hesc.trans he, hst⟩

/-! ### The flag and the outputs after any feed (R116, R118) -/

theorem storeByte_esc_outputs (h : storeByte b s = .next t) : t.esc = s.esc ∧ t.outputs = s.outputs := by
  obtain ⟨-, rfl⟩ := storeByte_eq_next.1 h
  simp

/-- After a feed the flag tells whether an escape was just begun, and only a boundary octet has emitted anything. -/
theorem exec_decFeed_esc_outputs (hi : s.initialised = true) (h : exec (.decFeed b) s = .next t) :
    (t.esc = true ↔ b = Config.escape ∧ s.esc = false) ∧
      t.outputs = s.outputs ++ if b = Config.boundary then s.boundaryEvents else [] := by
  by_cases hb : b = Config.boundary
  · subst hb
    obtain rfl := eq_afterBoundary_of_exec hi h
    exact ⟨by simp [State.afterBoundary, Config.boundary, Config.escape], rfl⟩
  · rw [if_neg hb, List.append_nil]
    cases he : s.esc with
    | true =>
      rw [exec_decFeed_escaped hi he hb] at h
      obtain ⟨hesc, hout⟩ := storeByte_esc_outputs h
      exact ⟨by simp [hesc], hout⟩
    | false =>
      by_cases hx : b = Config.escape
      · subst hx
        rw [exec_decFeed_escape hi he] at h
        cases h
        exact ⟨by simp, rfl⟩
      · rw [exec_decFeed_plain hi he hb hx] at h
        obtain ⟨hesc, hout⟩ := storeByte_esc_outputs h
        exact ⟨by simp [hesc, he, hx], hout⟩

/-- Settles O36: only an escape octet sets the flag, and every other class leaves it false. -/
theorem flagAfterAFeed : Obligations.FlagAfterAFeed :=
  fun _ _ _ hi h => (exec_decFeed_esc_outputs hi h).1

/-- The frame a feed emits is the one held, and it has passed the check of a boundary octet. -/
theorem exec_decFeed_emits_iff (hi : s.initialised = true) (h : exec (.decFeed b) s = .next t) (f : Frame) :
    t.outputs = s.outputs ++ [.frame f] ↔
      f = s.frameHeld ∧ b = Config.boundary ∧ s.esc = false ∧ 2 ≤ s.wp.toNat ∧ s.trailerMatches = true := by
  obtain ⟨-, hout⟩ := exec_decFeed_esc_outputs hi h
  rw [hout, List.append_cancel_left_eq]
  by_cases hb : b = Config.boundary
  · rw [if_pos hb, State.boundaryEvents_eq_iff]
    simp only [hb, true_and]
  · rw [if_neg hb]
    exact iff_of_false (by simp) fun ⟨_, hb', _⟩ => hb hb'

theorem exec_decFeed_outputs_or (hi : s.initialised = true) (h : exec (.decFeed b) s = .next t) :
    t.outputs = s.outputs ∨ ∃ f, t.outputs = s.outputs ++ [.frame f] := by
  obtain ⟨-, hout⟩ := exec_decFeed_esc_outputs hi h
  split at hout
  · rw [hout]
    exact s.afterBoundary_outputs_or
  · exact .inl (hout.trans (List.append_nil _))

/-- Settles O37: what a feed emits is what its boundary octet emits. -/
theorem frameIsEmittedExactlyOnAMatch : Obligations.FrameIsEmittedExactlyOnAMatch := by
  intro b s t hi h
  refine ⟨exec_decFeed_outputs_or hi h, ?_⟩
  simp only [exec_decFeed_emits_iff hi h, s.trailerMatches_iff, exists_eq_left]
  rfl

/-- Settles O40: the frame emitted is the one held, of `wp <= C-1` bytes (R114). -/
theorem emittedFrameFitsTheCapacity : Obligations.EmittedFrameFitsTheCapacity := by
  intro b s t hinv hi h
  have hpos := hinv.positionBound hi
  have hfits : ∀ f, t.outputs = s.outputs ++ [.frame f] →
      f.Valid ∧ f.rawLength.toNat + 1 ≤ s.cap.toNat ∧ f.payloadLength.toNat + 3 ≤ s.cap.toNat := by
    intro f hf
    obtain ⟨rfl, -, -, h2, hm⟩ := (exec_decFeed_emits_iff hi h f).1 hf
    refine ⟨s.frameHeld_valid h2 hm, hpos, ?_⟩
    rw [s.payloadLength_frameHeld h2]
    omega
  refine ⟨hfits, fun hcap => ?_⟩
  obtain hnone | ⟨f, hf⟩ := exec_decFeed_outputs_or hi h
  · exact hnone
  · obtain ⟨-, -, hlt⟩ := hfits f hf
    omega

/-! ### Stuffed bytes fed one after another (R112, R113) -/

/-- `t` is `s` with the bytes `l` stored after those held, none of them the last the buffer has room for. -/
structure Appended (l : Bytes) (s t : State) : Prop where
  held : t.bufPrefix t.wp.toNat = s.bufPrefix s.wp.toNat ++ l
  position : t.wp.toNat = s.wp.toNat + l.length
  ready : Ready t
  esc : t.esc = false
  cap : t.cap = s.cap
  outputs : t.outputs = s.outputs

theorem Appended.nil (hs : Ready s) (he : s.esc = false) : Appended [] s s :=
  ⟨(List.append_nil _).symm, rfl, hs, he, rfl, rfl⟩

/-- One more byte stored, short of the capacity. -/
theorem Appended.concat {u : State} (h : Appended l s t) (hst : Stores x t u) (hesc : u.esc = t.esc)
    (hroom : s.wp.toNat + l.length + 1 < s.cap.toNat) : Appended (l ++ [x]) s u := by
  have hwp : u.wp.toNat = t.wp.toNat + 1 := by
    rw [hst.position, if_neg (by rw [h.position, h.cap]; omega)]
  have hprefix : u.bufPrefix t.wp.toNat = t.bufPrefix t.wp.toNat :=
    State.bufPrefix_congr fun i hi => hst.otherBytes i (Nat.ne_of_lt hi)
  refine ⟨?_, ?_, hst.ready h.ready, hesc.trans h.esc, hst.cap.trans h.cap, hst.outputs.trans h.outputs⟩
  · rw [hwp, State.bufPrefix_succ, hprefix, hst.stored, h.held, List.append_assoc]
  · rw [hwp, h.position, List.length_append, List.length_singleton, Nat.add_assoc]

theorem feedAll_append_of_next {v w : Bytes} (h : feedAll v s = .next t) : feedAll (v ++ w) s = feedAll w t := by
  rw [feedAll_append, h]

theorem feedAll_cons_of_next {w : Bytes} (h : exec (.decFeed b) s = .next t) : feedAll (b :: w) s = feedAll w t := by
  rw [feedAll, h]

theorem feedAll_flatMap_stuff_concat (hl : feedAll (l.flatMap stuff) s = .next t) (h : Appended l s t) (x : Byte) :
    feedAll ((l ++ [x]).flatMap stuff) s = storeByte x t := by
  rw [List.flatMap_append, feedAll_append_of_next hl, List.flatMap_singleton, feedAll_stuff x h.ready.constructed h.esc]

/-- The stuffed bytes of a list that fits below the capacity are stored in order, by induction on its last byte. -/
theorem feedAll_flatMap_stuff (hs : Ready s) (he : s.esc = false) (hroom : s.wp.toNat + l.length < s.cap.toNat) :
    ∃ t, feedAll (l.flatMap stuff) s = .next t ∧ Appended l s t := by
  induction l using List.reverseRecOn with
  | nil => exact ⟨s, rfl, .nil hs he⟩
  | append_singleton l x ih =>
    rw [List.length_append, List.length_singleton] at hroom
    obtain ⟨t, ht, happ⟩ := ih (by omega)
    obtain ⟨u, hu, hst, hesc, -, -⟩ := storeByte_stores (b := x) happ.ready.position
    exact ⟨u, (feedAll_flatMap_stuff_concat ht happ x).trans hu, happ.concat hst hesc (by omega)⟩

/-- The stuffed bytes of a list that reaches the capacity are dropped by the guard of R113 at its last byte. -/
theorem feedAll_flatMap_stuff_overflow (hs : Ready s) (he : s.esc = false) (hfull : s.wp.toNat + l.length = s.cap.toNat) :
    ∃ t, feedAll (l.flatMap stuff) s = .next t ∧ t.wp = 0 ∧ t.rcrc = 0xFFFF#16 ∧ t.esc = false ∧ Ready t ∧
      t.outputs = s.outputs := by
  obtain rfl | ⟨l, x, rfl⟩ := l.eq_nil_or_concat
  · exact absurd hfull (Nat.ne_of_lt hs.position)
  · rw [List.concat_eq_append, List.length_append, List.length_singleton] at hfull
    obtain ⟨t, ht, happ⟩ := feedAll_flatMap_stuff (l := l) hs he (by omega)
    obtain ⟨u, hu, hst, hesc, -, -⟩ := storeByte_stores (b := x) happ.ready.position
    have hlast : t.wp.toNat + 1 = t.cap.toNat := by
      rw [happ.position, happ.cap]
      omega
    refine ⟨u, ?_, ?_, ?_, hesc.trans happ.esc, hst.ready happ.ready, hst.outputs.trans happ.outputs⟩
    · rw [List.concat_eq_append, feedAll_flatMap_stuff_concat ht happ x, hu]
    · exact BitVec.eq_of_toNat_eq (hst.position.trans (if_pos hlast))
    · exact hst.running.trans (if_pos hlast)

theorem flatMap_stuff_of_plain (h : ∀ b ∈ l, b ≠ Config.boundary ∧ b ≠ Config.escape) : l.flatMap stuff = l := by
  induction l with
  | nil => rfl
  | cons b l ih =>
    obtain ⟨⟨h1, h2⟩, hl⟩ := List.forall_mem_cons.1 h
    rw [List.flatMap_cons, stuff_plain h1 h2, ih hl, List.singleton_append]

/-- Settles O35: plain bytes are their own stuffed form, and as many as the buffer holds overflow it. -/
theorem fullBufferIsDroppedSilently : Obligations.FullBufferIsDroppedSilently := by
  intro l s hs hwp he hlen hplain
  obtain ⟨t, ht, hw, hr, hesc, -, hout⟩ := feedAll_flatMap_stuff_overflow (l := l) hs he (by simp [hwp, hlen])
  rw [flatMap_stuff_of_plain hplain] at ht
  exact ⟨t, ht, hw, hr, hesc, hout⟩

/-! ### The round trip (R149) -/

/-- The frame that the encoder sends for a payload, as the decoder records it. -/
def payloadFrame (n : Half) (p : Bytes) : Frame where
  bytes := p ++ trailerBytes (crcCompute p)
  rawLength := BitVec.ofNat 16 (p.length + 2)
  payloadLength := n

/-- A decoder that holds exactly a payload and its checksum emits at a boundary the payload's frame. -/
theorem State.boundaryEvents_of_payload {n : Half} (hn : p.length = n.toNat) (he : s.esc = false)
    (hwp : s.wp.toNat = p.length + 2) (hheld : s.bufPrefix s.wp.toNat = p ++ trailerBytes (crcCompute p)) :
    s.boundaryEvents = [.frame (payloadFrame n p)] := by
  have h2 : 2 ≤ s.wp.toNat := by omega
  have hframe : s.frameHeld = payloadFrame n p := by
    simp [State.frameHeld_eq h2, payloadFrame, hheld, ← hwp, show s.wp.toNat - 2 = n.toNat by omega]
  rw [State.boundaryEvents_of_match he h2 (frameWithItsChecksumIsAccepted s p hwp hheld), hframe]

/-- What the encoder sends after the opening boundary, fed to an empty decoder with room for it and a byte more, delivers
the payload's frame. -/
theorem feedAll_wireFrame_tail {n : Half} (hs : Ready s) (he : s.esc = false) (hwp : s.wp = 0) (hn : p.length = n.toNat)
    (hroom : p.length + 3 ≤ s.cap.toNat) : ∃ t, feedAll (wireFrame p).tail s = .next t ∧
      t.outputs = s.outputs ++ [.frame (payloadFrame n p)] ∧
      t.bufPrefix (p.length + 2) = p ++ trailerBytes (crcCompute p) ∧
      t.wp = 0 ∧ t.esc = false ∧ t.rcrc = 0xFFFF#16 := by
  have hfits : s.wp.toNat + (p ++ trailerBytes (crcCompute p)).length < s.cap.toNat := by
    simpa [hwp] using Nat.lt_of_succ_le hroom
  obtain ⟨t, ht, happ⟩ := feedAll_flatMap_stuff hs he hfits
  have hheld : t.bufPrefix t.wp.toNat = p ++ trailerBytes (crcCompute p) := by simpa [hwp] using happ.held
  have hpos : t.wp.toNat = p.length + 2 := by simpa [hwp] using happ.position
  refine ⟨t.afterBoundary, ?_, ?_, ?_, rfl, rfl, rfl⟩
  · rw [wireFrame_eq, List.tail_cons, feedAll_append_of_next ht, feedAll_singleton,
      exec_decFeed_boundary happ.ready.constructed fun _ _ => happ.ready.position.le]
  · rw [← happ.outputs, ← State.boundaryEvents_of_payload hn happ.esc hpos hheld]
    rfl
  · rw [← hpos]
    exact hheld

/-- With room for it and no byte more, the last trailer byte overflows and the closing boundary finds nothing held. -/
theorem feedAll_wireFrame_tail_overflow (hs : Ready s) (he : s.esc = false) (hwp : s.wp = 0)
    (hfull : p.length + 2 = s.cap.toNat) : ∃ t, feedAll (wireFrame p).tail s = .next t ∧ t.outputs = s.outputs ∧
      t.wp = 0 ∧ t.esc = false ∧ t.rcrc = 0xFFFF#16 := by
  have hfills : s.wp.toNat + (p ++ trailerBytes (crcCompute p)).length = s.cap.toNat := by
    simpa [hwp] using hfull
  obtain ⟨t, ht, hw, -, -, hready, hout⟩ := feedAll_flatMap_stuff_overflow hs he hfills
  refine ⟨t.afterBoundary, ?_, ?_, rfl, rfl, rfl⟩
  · rw [wireFrame_eq, List.tail_cons, feedAll_append_of_next ht, feedAll_singleton,
      exec_decFeed_boundary hready.constructed fun _ _ => hready.position.le]
  · rw [State.afterBoundary_outputs_of_wp_zero hw, hout]

/-- Settles O56: the opening boundary empties the decoder, and the rest is stored and delivered or dropped at the last
byte. The frame held before has at most `C-1` bytes, so it is not the frame of a payload of `C-2`. -/
theorem encodedFrameRoundTrips : Obligations.EncodedFrameRoundTrips := by
  intro n p w e e' s hn hexec hsink hinv hi
  have hw : wireFrame p = w := by
    rw [exec_encEncode_of_length hn] at hexec
    cases hexec
    rw [State.emit_sinkBytes_sink] at hsink
    exact List.append_cancel_left hsink
  subst hw
  have hpos := hinv.positionBound hi
  have hopen : exec (.decFeed 0x7E#8) s = .next s.afterBoundary := exec_decFeed_boundary hi fun _ _ => hpos.le
  have hready : Ready s.afterBoundary := ⟨hi, Nat.zero_lt_of_lt hpos⟩
  have hwhole : feedAll (wireFrame p) s = feedAll (wireFrame p).tail s.afterBoundary := feedAll_cons_of_next hopen
  refine ⟨s.afterBoundary, s.boundaryEvents, rfl, hopen, rfl, ?_, State.boundaryEvents_of_wp_zero, fun hroom => ?_,
    fun hfull => ?_⟩
  · exact s.boundaryEvents_eq_nil_or.imp id fun hframe => ⟨s.frameHeld, hframe, hpos⟩
  · obtain ⟨t, ht, hrest⟩ := feedAll_wireFrame_tail hready rfl rfl hn hroom
    exact ⟨t, ht, hwhole.trans ht, hrest⟩
  · obtain ⟨t, ht, hout, hrest⟩ := feedAll_wireFrame_tail_overflow hready rfl rfl hfull
    refine ⟨t, ht, hwhole.trans ht, hout, fun hmem => ?_, hrest⟩
    obtain hnil | hframe := s.boundaryEvents_eq_nil_or
    · simp [hnil] at hmem
    · rw [hframe, List.mem_singleton, hfull] at hmem
      have hraw : BitVec.ofNat 16 s.cap.toNat = s.wp := congrArg Frame.rawLength (Event.frame.inj hmem)
      rw [BitVec.ofNat_toNat, BitVec.setWidth_eq] at hraw
      exact hpos.ne (congrArg BitVec.toNat hraw.symm)

/-! ### A flipped bit (R87) -/

/-- The update loses nothing of the running value and the byte together. -/
theorem crcUpdate_eq_iff : crcUpdate c a = crcUpdate d b ↔ c ^^^ (a.setWidth 16 <<< 8) = d ^^^ (b.setWidth 16 <<< 8) := by
  refine ⟨fun h => ?_, fun h => congrArg (crcShifts 8) h⟩
  have hzero : crcShifts 8 ((c ^^^ (a.setWidth 16 <<< 8)) ^^^ (d ^^^ (b.setWidth 16 <<< 8))) = 0 := by
    rw [crcShifts_xor]
    exact BitVec.xor_eq_zero_iff.2 h
  exact BitVec.xor_eq_zero_iff.1 (crcShifts_eq_zero hzero)

theorem crcUpdate_left_inj : crcUpdate c b = crcUpdate d b ↔ c = d := by
  rw [crcUpdate_eq_iff, BitVec.xor_left_inj]

theorem crcUpdate_right_inj : crcUpdate c a = crcUpdate c b ↔ a = b := by
  refine ⟨fun h => ?_, fun h => congrArg _ h⟩
  have hshift : ((a.setWidth 16 : Half) <<< 8) >>> 8 = ((b.setWidth 16 : Half) <<< 8) >>> 8 :=
    congrArg (fun v : Half => v >>> 8) ((BitVec.xor_right_inj c).1 (crcUpdate_eq_iff.1 h))
  rw [setWidth_shiftLeft_ushiftRight, setWidth_shiftLeft_ushiftRight] at hshift
  simpa using congrArg (BitVec.setWidth 8) hshift

theorem foldl_crcUpdate_inj (l : Bytes) : l.foldl crcUpdate c = l.foldl crcUpdate d ↔ c = d := by
  induction l generalizing c d with
  | nil => rfl
  | cons b l ih => rw [List.foldl_cons, List.foldl_cons, ih, crcUpdate_left_inj]

/-- Two lists that differ in one byte have different checksums. -/
theorem crcCompute_ne_of_one_byte (u v : Bytes) (h : x ≠ y) : crcCompute (u ++ x :: v) ≠ crcCompute (u ++ y :: v) := by
  simpa only [crcCompute_eq_foldl, List.foldl_append, List.foldl_cons, ne_eq, foldl_crcUpdate_inj, crcUpdate_right_inj]
    using h

/-- A register whose high byte is clear shifts out nothing in eight shifts. -/
theorem crcShifts_setWidth (b : Byte) : crcShifts 8 (b.setWidth 16) = b.setWidth 16 <<< 8 := by
  have hclear : (b.setWidth 16 : Half) >>> 8 = 0 := by
    apply BitVec.eq_of_toNat_eq
    have := b.isLt
    simp [Nat.shiftRight_eq_div_pow]
    omega
  simp [crcShifts_eq_generatorMultiple _ le_rfl, quotientAfter, hclear, generatorMultiple]

/-- A checksum followed by its own two bytes leaves zero in the register. -/
theorem crcUpdate_join (a b : Byte) : crcUpdate (crcUpdate (join a b) a) b = 0 := by
  have hhigh : join a b ^^^ (a.setWidth 16 <<< 8) = b.setWidth 16 := by
    apply BitVec.eq_of_getLsbD_eq
    intro i hi
    by_cases h : i < 8
    · simp [join, h]
    · simp [join, h, BitVec.getLsbD_of_ge b i (by omega)]
  rw [crcUpdate, crcUpdate, hhigh, crcShifts_setWidth, BitVec.xor_self]
  rfl

/-- The check of R106 is that the checksum of all bytes held, trailer included, is zero. -/
theorem State.trailerMatches_iff_crcCompute_eq_zero (h2 : 2 ≤ s.wp.toNat) :
    s.trailerMatches = true ↔ crcCompute (s.bufPrefix s.wp.toNat) = 0 := by
  rw [State.bufPrefix_wp h2, List.append_cons, crcCompute_concat, crcCompute_concat,
    ← crcUpdate_join (s.bufAt (s.wp.toNat - 2)) (s.bufAt (s.wp.toNat - 1)), crcUpdate_left_inj, crcUpdate_left_inj]
  exact decide_eq_true_iff

theorem crcCompute_append_trailerBytes (l : Bytes) : crcCompute (l ++ trailerBytes (crcCompute l)) = 0 := by
  have hzero := crcUpdate_join (hi8 (crcCompute l)) (lo8 (crcCompute l))
  rwa [join_hi8_lo8, ← crcCompute_concat, ← crcCompute_concat, List.append_assoc] at hzero

theorem flipBit_eq {i : Nat} (l : Bytes) (hi : i < l.length) (k : Nat) :
    flipBit l i k = l.take i ++ (l[i] ^^^ (1#8 <<< k)) :: l.drop (i + 1) :=
  List.modify_eq_take_cons_drop hi

/-- A flipped bit changes the checksum. -/
theorem crcCompute_flipBit_ne {i k : Nat} (hi : i < l.length) (hk : k < 8) :
    crcCompute (flipBit l i k) ≠ crcCompute l := by
  have hbit : l[i] ^^^ (1#8 <<< k) ≠ l[i] := by
    have hmask : 1#8 <<< k ≠ 0 := by interval_cases k <;> decide
    simpa using hmask
  rw [flipBit_eq l hi]
  conv_rhs => rw [← List.take_append_drop i l, List.drop_eq_getElem_cons hi]
  exact crcCompute_ne_of_one_byte _ _ hbit

/-- Settles O22: the frame's own checksum is zero, so that of the frame with a flipped bit is not. -/
theorem frameWithOneFlippedBitIsRejected : Obligations.FrameWithOneFlippedBitIsRejected := by
  intro s l i k hwp hi hk hheld
  have hne := crcCompute_flipBit_ne (l := l ++ trailerBytes (crcCompute l)) (i := i) (by simpa using hi) hk
  rw [crcCompute_append_trailerBytes] at hne
  rw [← Bool.not_eq_true, State.trailerMatches_iff_crcCompute_eq_zero (by omega), hheld]
  exact hne

end Sys2Proof.Machine
end

/-! PROOFS. The frame encoder family (42_frame_encoder.md R141 to R145): the bytes of the wire frame in emission order, and
the byte sink as the one output they go to. -/

section
namespace Sys2Proof.Machine

/-! ### The trailer's bytes as numbers (R12) -/

theorem hi8_eq_ofNat_div (v : Half) : hi8 v = BitVec.ofNat 8 (v.toNat / 256) := by
  rw [hi8, BitVec.extractLsb', Nat.shiftRight_eq_div_pow]

theorem lo8_eq_ofNat_mod (v : Half) : lo8 v = BitVec.ofNat 8 (v.toNat % 256) :=
  BitVec.eq_of_toNat_eq (by simp [lo8])

/-! ### The bytes emitted (R142 to R145) -/

/-- The trailer's high byte is stuffed before its low byte. -/
theorem wireFrame_eq_emission_order (p : Bytes) :
    wireFrame p = [0x7E#8] ++ p.flatMap stuff ++ stuff (BitVec.ofNat 8 ((crcCompute p).toNat / 256))
      ++ stuff (BitVec.ofNat 8 ((crcCompute p).toNat % 256)) ++ [0x7E#8] := by
  rw [← hi8_eq_ofNat_div, ← lo8_eq_ofNat_mod]
  simp [wireFrame, trailerBytes, Config.boundary]

/-- Bytes put on the byte sink are no frames. -/
theorem State.emit_sinkBytes_frames (s : State) (w : Bytes) : (s.emit (w.map .sinkByte)).frames = s.frames := by
  simp [Event.frame?]

/-- Bytes put on the byte sink are no results. -/
theorem State.emit_sinkBytes_results (s : State) (w : Bytes) : (s.emit (w.map .sinkByte)).results = s.results := by
  simp [Event.result?]

/-- Settles O51: the operand has the length of the word, so the next state is the state with the wire frame emitted on the
byte sink, and the statement's `escaped` is `stuff`. -/
theorem encodeEmitsTheWireFrame : Obligations.EncodeEmitsTheWireFrame := by
  intro n p s hn
  refine ⟨_, exec_encEncode_of_length hn s, ?_, rfl, s.emit_sinkBytes_frames _, s.emit_sinkBytes_results _,
    List.prefix_append _ _⟩
  rw [State.emit_sinkBytes_sink, wireFrame_eq_emission_order]
  simp only [← List.append_assoc]
  rfl

end Sys2Proof.Machine
end

section
namespace Sys2Proof.Machine

/-- Settles O9: the step of a block with no operation pending. -/
theorem stepWithNothingPendingWaits : Obligations.StepWithNothingPendingWaits := fun _ => step_of_pending_nil

/-- Settles O43: a step that stops needs a constructed decoder with `C <= wp`, and the invariant bounds `wp` below `C`. -/
theorem everyStepGoesOnUnderTheInvariant : Obligations.EveryStepGoesOnUnderTheInvariant := by
  intro s h
  obtain hnext | ⟨k, -, hi, hcap, hwp⟩ := onlyAnAccessOutsideTheBufferStops s
  · exact hnext
  · exact absurd (h.positionBound hi) (Nat.not_lt.2 (hcap.trans hwp))

end Sys2Proof.Machine
end

/-! PROOFS. The host's view of one table word (spec/opcode_table.json, log 15): the word is read as an encoded instruction,
that is put at the head of the pending operations, and the next step runs it. -/

section
namespace Sys2Proof.Machine

variable {nbits n : Nat} {e : Encoded} {i : Instr}

/-! ### Reading the table word -/

theorem decodeTableWord_eq_some_iff :
    decodeTableWord nbits n = some i ↔ ∃ e, tableEncoded nbits n = some e ∧ decode e = .ok i := by
  unfold decodeTableWord
  cases tableEncoded nbits n with
  | none => simp
  | some e => cases hd : decode e <;> simp [hd]

theorem State.withFetchWord_of_tableEncoded (h : tableEncoded nbits n = some e) (s : State) :
    s.withFetchWord nbits n = s.withNext e := by
  simp [State.withFetchWord, State.withTableWord, h]

/-- A table word that is a decoder input keeps its number in the nine bits. -/
theorem toNat_of_tableEncoded_decoderInput {v : BitVec 9} (h : tableEncoded nbits n = some (.decoderInput v)) :
    v.toNat = n % 2 ^ nbits := by
  unfold tableEncoded at h
  split at h
  · split at h
    · next hlt =>
      obtain rfl := Encoded.decoderInput.inj (Option.some.inj h)
      exact Nat.mod_eq_of_lt hlt
    · cases h
  · cases Option.some.inj h

/-! ### The step on the encoded instruction -/

theorem step_withNext_command {w : Word} {p : Bytes} (h : decodeCommand w p = .ok i) (s : State) :
    step (s.withNext (.command w p)) = exec i s :=
  step_of_accept rfl (accept_serial h)

/-- The feed of the byte, with the flag set as the value fixes it, runs the class of the value. -/
theorem step_withNext_decoderInput (v : BitVec 9) (s : State) :
    step (s.withNext (.decoderInput v))
      = exec (classify (v.getLsbD 8) (v.extractLsb' 0 8)) { s with esc := v.getLsbD 8 } :=
  (step_of_accept rfl (accept_serial (decodeCommand_format8_decFeed _ []))).trans (exec_decFeed _ _)

/-- Settles O8, by the format of the word: what a command word decodes to is a command and runs from the state itself; what
a decoder input decodes to is an input class, and the flag it runs with is bit 8 of the number. -/
theorem stepRunsTheTableWord : Obligations.StepRunsTheTableWord := by
  intro s nbits n i h
  obtain ⟨e, he, hd⟩ := decodeTableWord_eq_some_iff.1 h
  rw [State.withFetchWord_of_tableEncoded he]
  cases e with
  | command w p =>
    obtain ⟨-, hcmd, -⟩ := encode_of_decodeCommand hd
    exact ⟨fun _ => step_withNext_command hd s, fun hcls => absurd (hcls.symm.trans hcmd) Bool.false_ne_true⟩
  | decoderInput v =>
    obtain rfl : classify (v.getLsbD 8) (v.extractLsb' 0 8) = i := Except.ok.inj hd
    obtain ⟨-, hcls, -⟩ := encode_classify (v.getLsbD 8) (v.extractLsb' 0 8)
    have hflag : (n % 2 ^ nbits).testBit 8 = v.getLsbD 8 := by
      rw [← toNat_of_tableEncoded_decoderInput he, BitVec.testBit_toNat]
    exact ⟨fun hcmd => absurd (hcls.symm.trans hcmd) Bool.false_ne_true, fun _ => hflag ▸ step_withNext_decoderInput v s⟩

end Sys2Proof.Machine
end
